-- ==== Sys2Proof/Word.lean ====
section
/-! DEFINITION. The word types of the digest engine: bytes, command words, and the 16-bit operand field (spec R7, R71). -/

namespace Sys2Proof

/-- One byte of a message, of the pending buffer or of the response stream. -/
abbrev Byte := BitVec 8

/-- A 16-bit operand field `IMM` of a command word (R71). -/
abbrev Half := BitVec 16

/-- A 32-bit command word or status word (R7, R70, R181). -/
abbrev Word := BitVec 32

end Sys2Proof
end

