-- ==== Sys2Proof/Machine/Bytes.lean ====
section
/-! DEFINITION. Byte order: the big-endian encoding `BE_n` of spec R10 (R51, R53) and its inverse. -/

namespace Sys2Proof

/-- `BE_n(v)`: byte `i` is `(v >> (8·(n − 1 − i))) & 0xFF` (R10). -/
def beBytes (n v : Nat) : List Byte :=
  (List.range n).map fun i => BitVec.ofNat 8 (v >>> (8 * (n - 1 - i)))

/-- `BE_4` of a 32-bit word (R53). -/
def wordBytes (w : Word) : List Byte := beBytes 4 w.toNat

/-- The 32-bit word that four bytes of the host's byte stream carry, the first the most significant (R53). -/
def wordOfBytes (b0 b1 b2 b3 : Byte) : Word := b0 ++ b1 ++ b2 ++ b3

end Sys2Proof
end

