-- ==== Sys2Proof/Syntax.lean ====
section
/-! DEFINITION. The algorithms, the compression families, the host's transactions and the ten command forms
(spec R2, R22, R70, R72, opcode_table.json). -/

namespace Sys2Proof

/-- The five digest algorithms (R2). -/
inductive Alg where
  | sha1 | sha2_224 | sha2_256 | sha2_384 | sha2_512
  deriving DecidableEq, Repr, Inhabited

/-- The three compression variants of the capability (R163). -/
inductive Family where
  | sha1 | sha2_256 | sha2_512
  deriving DecidableEq, Repr, Inhabited

/-- A transaction of the host port: a command word and its payload (R70). -/
structure Txn where
  cw      : Word
  payload : List Byte
  deriving DecidableEq, Repr

/-- The commands: one constructor per row of spec/opcode_table.json. -/
inductive Instr where
  /-- `CREATE SHA1` (R101). -/
  | createSha1
  /-- `CREATE SHA2_224` (R101). -/
  | createSha2_224
  /-- `CREATE SHA2_256` (R101). -/
  | createSha2_256
  /-- `CREATE SHA2_384` (R101). -/
  | createSha2_384
  /-- `CREATE SHA2_512` (R101). -/
  | createSha2_512
  /-- `CREATE_BW bw` (R102); `bw` is the field `IMM`. -/
  | createBw (bw : Half)
  /-- `UPDATE` with the field `len = IMM` and the payload that follows the word (R127). -/
  | update (len : Half) (payload : List Byte)
  /-- `DIGEST` (R128). -/
  | digest
  /-- `RESET` (R126). -/
  | reset
  /-- `STATUS` (R180). -/
  | status
  deriving DecidableEq, Repr

end Sys2Proof
end

