-- ==== Sys2Proof/Config.lean ====
section
/-! DEFINITION. What an implementation fixes: the state shape of each family (spec R21, R22) and the open parameters
of R8, which are opaque: no proof can see their values, so a claim holds for every one. -/

namespace Sys2Proof

/-- The family of each algorithm (R21, R22, R163). That SHA2-224 belongs to the SHA2-256-family is general knowledge
marked so by R22 (log entry 11). PRESUMED; unsafe. -/
def Alg.fam : Alg → Family
  | .sha1 => .sha1
  | .sha2_224 => .sha2_256
  | .sha2_256 => .sha2_256
  | .sha2_384 => .sha2_512
  | .sha2_512 => .sha2_512

/-- `WW`: the width in bits of a state word (R21). -/
def Family.wordBits : Family → Nat
  | .sha1 => 32
  | .sha2_256 => 32
  | .sha2_512 => 64

/-- `NW`: the number of state words (R21). -/
def Family.wordCount : Family → Nat
  | .sha1 => 5
  | .sha2_256 => 8
  | .sha2_512 => 8

/-- A chaining state value of a family's shape: `NW` words of `WW` bits (R28). The family is the tag of the spec's
tagged union, so a value of the wrong shape cannot be written (R166, log entry 2). -/
abbrev Family.Chain (f : Family) := Vector (BitVec f.wordBits) f.wordCount

/-- The chaining state of an algorithm has its family's shape (R28). -/
abbrev Alg.Chain (a : Alg) := a.fam.Chain

/-- The Compression Capability: the two calls of the downstream port (R160). Both are total, deterministic and
free of side effects (R161, R162, R238), and keep the shape (R166). -/
structure Capability where
  /-- `InitState(a)` (R161). -/
  initState : (a : Alg) → a.Chain
  /-- `Compress(f, h, blk)` (R162). -/
  compress : (f : Family) → f.Chain → List Byte → f.Chain
  deriving Inhabited

/-- The attached capability, a parameter of the model (R8, U5, U6; log entry 1). -/
opaque Config.capability : Capability

/-- The content of the pending buffer's byte at an offset that nothing has written since power-on: any value
(R37, U2; log entry 3). -/
opaque Config.unwrittenByte : Nat → Byte

/-- What the length field of the padding holds for a message whose bit length does not fit the field, by message length and
field length: any value. R123 gives none, and no admitted message is so long (R131; log entry 15). -/
opaque Config.oversizeBitLength : Nat → Nat → Nat

/-- One less than `N_INSTANCES`, which is any number of at least 1 (R8; log entry 10). -/
opaque Config.extraInstances : Nat

/-- `N_INSTANCES` (R8, R215). -/
def Config.nInstances : Nat := Config.extraInstances + 1

end Sys2Proof
end

