-- ==== Sys2Proof/Machine/Descriptor.lean ====
section
/-! DEFINITION. The Algorithm Descriptor table of spec R21 and the algorithm codes of R73. -/

namespace Sys2Proof

/-- The algorithm code (R73). -/
def Alg.code : Alg → BitVec 4
  | .sha1 => 0
  | .sha2_224 => 1
  | .sha2_256 => 2
  | .sha2_384 => 3
  | .sha2_512 => 4

/-- The algorithm of a code, `none` for the reserved codes 5 to 15 (R73). -/
def Alg.ofCode (c : BitVec 4) : Option Alg :=
  if c = 0 then some .sha1
  else if c = 1 then some .sha2_224
  else if c = 2 then some .sha2_256
  else if c = 3 then some .sha2_384
  else if c = 4 then some .sha2_512
  else none

/-- `B` of a family: the block size in bytes (R21). -/
def Family.blockBytes : Family → Nat
  | .sha1 => 64
  | .sha2_256 => 64
  | .sha2_512 => 128

/-- `B(a)` (R21). -/
def Alg.blockBytes (a : Alg) : Nat := a.fam.blockBytes

/-- `DL(a)`: the digest length in bytes (R21). -/
def Alg.digestBytes : Alg → Nat
  | .sha1 => 20
  | .sha2_224 => 28
  | .sha2_256 => 32
  | .sha2_384 => 48
  | .sha2_512 => 64

/-- `F(a)`: the width in bytes of the padding length field (R21). -/
def Alg.lengthFieldBytes (a : Alg) : Nat :=
  match a.fam with
  | .sha1 => 8
  | .sha2_256 => 8
  | .sha2_512 => 16

/-- `LMAX(a)`: the largest admitted message length in bytes (R21, R131). -/
def Alg.maxMessageBytes (a : Alg) : Nat :=
  match a.fam with
  | .sha1 => 2 ^ 61 - 1
  | .sha2_256 => 2 ^ 61 - 1
  | .sha2_512 => 2 ^ 125 - 1

end Sys2Proof
end

