-- ==== Sys2Proof/WellFormed.lean ====
section
/-! DEFINITION. Which commands are well-formed: an UPDATE carries exactly `len` payload bytes (spec R70, R127). -/

namespace Sys2Proof

/-- A command is well-formed iff its payload has the length its word fixes (R70): the one form with a payload
is UPDATE, whose payload is "exactly `len` bytes" (R127). -/
abbrev Instr.WellFormed : Instr → Prop
  | .createSha1 | .createSha2_224 | .createSha2_256 | .createSha2_384 | .createSha2_512 => True
  | .createBw _ => True
  | .update len payload => payload.length = len.toNat
  | .digest | .reset | .status => True

end Sys2Proof
end

