-- ==== Sys2Proof/Decode.lean ====
section
/-! DEFINITION. Command words and their fields, the total decoder of spec R77, the byte-stream form of R78, and the
encoder written from the same table (R71 to R75). -/

namespace Sys2Proof

/-- The field `OP = cw[3:0]` (R71). -/
def opField (cw : Word) : BitVec 4 := cw.extractLsb' 0 4

/-- The field `SUB = cw[7:4]` (R71). -/
def subField (cw : Word) : BitVec 4 := cw.extractLsb' 4 4

/-- The field `RSV = cw[15:8]` (R71). -/
def rsvField (cw : Word) : BitVec 8 := cw.extractLsb' 8 8

/-- The field `IMM = cw[31:16]` (R71). -/
def immField (cw : Word) : Half := cw.extractLsb' 16 16

/-- The CREATE command of an algorithm (R101). -/
def Instr.create : Alg → Instr
  | .sha1 => .createSha1
  | .sha2_224 => .createSha2_224
  | .sha2_256 => .createSha2_256
  | .sha2_384 => .createSha2_384
  | .sha2_512 => .createSha2_512

/-- What a command word decodes to: a command, or the rejection by name of R76. -/
inductive Decoded where
  | command (i : Instr)
  | illegal (cw : Word)
  deriving DecidableEq, Repr

/-- `decode(cw)` of R77, given the payload that follows the word; only UPDATE takes it. Total on every word. -/
def decode (cw : Word) (payload : List Byte) : Decoded :=
  if opField cw = 1 ∧ subField cw ≤ 4 ∧ rsvField cw = 0 ∧ immField cw = 0 then
    match Alg.ofCode (subField cw) with
    | some a => .command (Instr.create a)
    | none => .illegal cw
  else if opField cw = 2 ∧ subField cw = 0 ∧ rsvField cw = 0 then .command (.createBw (immField cw))
  else if opField cw = 3 ∧ subField cw = 0 ∧ rsvField cw = 0 then .command (.update (immField cw) payload)
  else if cw = 0x00000004 then .command .digest
  else if cw = 0x00000005 then .command .reset
  else if cw = 0x00000006 then .command .status
  else .illegal cw

/-- `paylen(cw)` of R77: `len` for an UPDATE word, 0 for every other word, the illegal ones too. -/
def paylen (cw : Word) : Nat :=
  if opField cw = 3 ∧ subField cw = 0 ∧ rsvField cw = 0 then (immField cw).toNat else 0

/-- A transaction is well-formed iff its payload has the length its word fixes (R70). -/
abbrev Txn.WellFormed (t : Txn) : Prop := t.payload.length = paylen t.cw

/-- What the front of a byte-serial host stream holds (R78): a whole transaction and the bytes after it, or not yet
a whole one, so that the engine waits (R236). -/
inductive TakenTxn where
  | txn (t : Txn) (rest : List Byte)
  | wait
  deriving DecidableEq, Repr

/-- Take one transaction from a byte stream: four bytes of word and `paylen` bytes of payload (R77, R78). -/
def takeTxn : List Byte → TakenTxn
  | b0 :: b1 :: b2 :: b3 :: rest =>
    if paylen (wordOfBytes b0 b1 b2 b3) ≤ rest.length then
      .txn ⟨wordOfBytes b0 b1 b2 b3, rest.take (paylen (wordOfBytes b0 b1 b2 b3))⟩
        (rest.drop (paylen (wordOfBytes b0 b1 b2 b3)))
    else .wait
  | _ => .wait

/-- What a byte stream decodes to: a command and the bytes after it, an illegal word and the bytes after it
(R78: "After an illegal word the next byte begins the next command word"), or nothing yet. -/
inductive DecodedBytes where
  | command (i : Instr) (rest : List Byte)
  | illegal (cw : Word) (rest : List Byte)
  | wait
  deriving DecidableEq, Repr

/-- The decoder of a byte stream, total on any bytes (R77, R78). -/
def decodeBytes (bytes : List Byte) : DecodedBytes :=
  match takeTxn bytes with
  | .wait => .wait
  | .txn t rest =>
    match decode t.cw t.payload with
    | .command i => .command i rest
    | .illegal cw => .illegal cw rest

/-- The command word with the given fields, `IMM ++ RSV ++ SUB ++ OP` (R71). -/
def commandWord (imm : Half) (rsv : BitVec 8) (sub op : BitVec 4) : Word := imm ++ rsv ++ sub ++ op

/-- The word of a command (R75, R81). -/
def encodeWord : Instr → Word
  | .createSha1 => commandWord 0 0 0 1
  | .createSha2_224 => commandWord 0 0 1 1
  | .createSha2_256 => commandWord 0 0 2 1
  | .createSha2_384 => commandWord 0 0 3 1
  | .createSha2_512 => commandWord 0 0 4 1
  | .createBw bw => commandWord bw 0 0 2
  | .update len _ => commandWord len 0 0 3
  | .digest => commandWord 0 0 0 4
  | .reset => commandWord 0 0 0 5
  | .status => commandWord 0 0 0 6

/-- The payload of a command: only UPDATE has one (R72). -/
def payloadOf : Instr → List Byte
  | .update _ payload => payload
  | .createSha1 | .createSha2_224 | .createSha2_256 | .createSha2_384 | .createSha2_512 => []
  | .createBw _ | .digest | .reset | .status => []

/-- The transaction of a command (R70). -/
def encodeTxn (i : Instr) : Txn := ⟨encodeWord i, payloadOf i⟩

/-- A transaction on a byte-serial host port: `BE_4(cw) ++ payload` (R78). -/
def txnBytes (t : Txn) : List Byte := wordBytes t.cw ++ t.payload

/-- The bytes of a command on a byte-serial host port (R78). -/
def encode (i : Instr) : List Byte := txnBytes (encodeTxn i)

/-- The transaction whose bits are `w`, numbered as the opcode table numbers them: the command word is bits 31..0 and
payload byte `k` is bits `32 + 8k + 7 .. 32 + 8k`, every bit from `nbits` on being 0 (log entry 12). -/
def tableTxn (nbits w : Nat) : Txn :=
  let cw : Word := BitVec.ofNat 32 (w % 2 ^ nbits)
  ⟨cw, (List.range (paylen cw)).map fun k => BitVec.ofNat 8 ((w % 2 ^ nbits) >>> (32 + 8 * k))⟩

/-- The command this decoder reads from an instruction of the opcode table whose bits are `w` (log entry 12): its
word and payload laid out as the host's byte stream carries them, then decoded. -/
def decodeTableWord (nbits w : Nat) : Option Instr :=
  match decodeBytes (txnBytes (tableTxn nbits w)) with
  | .command i _ => some i
  | .illegal _ _ => none
  | .wait => none

end Sys2Proof
end

