-- ==== Sys2Proof/Machine/State.lean ====
section
/-! DEFINITION. The architectural state of one engine instance (spec R20), the model's bookkeeping (R38), the host's
command stream (R50), the reasons a step stops, and the state after hardware reset (R37, R230). -/

namespace Sys2Proof.Machine

/-- The pending buffer's storage (R50): offset and byte, offsets strictly rising and below 128. An offset that is not
listed holds no value yet: nothing has written it since power-on (R37, log entry 3). -/
abbrev Memory := List Host.Cell

/-- Offsets strictly rise along the list. -/
def Memory.rising : Memory → Bool
  | [] => true
  | [_] => true
  | c :: d :: m => decide (c.1 < d.1) && Memory.rising (d :: m)

/-- The canonical form of the pending buffer: offsets strictly rising, all below `BUF_CAP = 128` (R7, R50). An unlisted
offset holds no value, so no entry can equal it. -/
def Memory.wf (m : Memory) : Bool := Memory.rising m && m.all fun c => decide (c.1 < 128)

/-- The bound algorithm with the chaining state `H`, which has that algorithm's shape: "the representation is selected
once at construction and fixed for the context's lifetime" (R28). -/
structure Binding where
  /-- `ALG` while bound (R24). -/
  alg : Alg
  /-- `H` while bound (R28). -/
  h   : alg.Chain
  deriving DecidableEq, Repr

/-- The causes a rejected command has (R201 codes 1 and 2, R208). -/
inductive RejectCause where
  | illegal
  | unbound
  deriving DecidableEq, Repr

/-- What `FAULT` holds once a command has been rejected: "The fault carries the command word for codes 1 and 2, so a
model names the offending transaction by `pc` and word" (R201). -/
structure FaultRecord where
  cause : RejectCause
  cw    : Word
  pc    : Nat
  deriving DecidableEq, Repr

/-- One call on the compression-wrapper port, with its arguments and its result (R38, R167). -/
inductive CapCall where
  /-- `InitState(a)` gave `hOut` (R161). -/
  | initState (a : Alg) (hOut : a.Chain)
  /-- `Compress(f, hIn, block)` gave `hOut` (R162). -/
  | compress (f : Family) (hIn : f.Chain) (block : List Byte) (hOut : f.Chain)
  deriving DecidableEq, Repr

/-- What the host has issued and the engine has not yet taken: transactions (R70), or, on a byte-serial host port,
bytes (R78). Log entry 8. -/
inductive HostPort where
  | transactions (queue : List Txn)
  | bytes (stream : List Byte)
  deriving DecidableEq, Repr

/-- One engine instance: the elements of R20, the bookkeeping of R38 and the host's command stream of R50. -/
structure State where
  /-- `ALG` and `H` (R20, R24, R28): `none` is `ALG = 0xF`, unbound, when `H` holds no value (R37; log entry 4). -/
  bound  : Option Binding
  /-- The pending buffer `buf` (R25). -/
  buf    : Memory
  /-- `BP`, bytesPending, 7 bits (R26). -/
  bp     : BitVec 7
  /-- `TOTAL`, totalBytesProcessed, 128 bits (R27). -/
  total  : BitVec 128
  /-- `ERR`, sticky (R30). -/
  err    : Bool
  /-- `ECAUSE`: `none` is 0 (R30; log entry 4). -/
  ecause : Option RejectCause
  /-- `FAULT`: the first rejection, never cleared (R38, R209). -/
  fault  : Option FaultRecord
  /-- `OUT`: the response stream so far (R38, R50). -/
  out    : List Byte
  /-- `TRACE`: the calls on the compression-wrapper port so far, in issue order (R38, R167). -/
  trace  : List CapCall
  /-- `pc`: how many transactions have been taken (R35). -/
  pc     : Nat
  /-- The host's command stream from the next transaction on (R50; log entry 8). -/
  port   : HostPort
  deriving DecidableEq, Repr

/-- Why the machine stops. -/
inductive Fault where
  /-- LENGTH (R201 code 3, R204): raised by UPDATE when `TOTAL + len > LMAX(ALG)`. Safe: the hardware goes on with
  unspecified values, the model stops, as R209 says. -/
  | length
  /-- Raised by UPDATE and DIGEST in a bound state whose `BP` is not below `B(ALG)`, which the precondition of `Absorb`
  (R120) excludes and no run from reset reaches (R26). The model's own (log entry 7). Safe: it only stops. -/
  | pendingOverflow
  deriving DecidableEq, Repr

/-- Why a step gives no meaning. -/
inductive Refusal where
  /-- An instruction without a meaning yet; raised by `exec` alone, by no arm of it now. Safe: it only stops. -/
  | notModelled (mnemonic : String)
  /-- MALFORMED (R201 code 4, R205): raised by the step at a transaction whose payload length differs from
  `paylen(cw)`, and by UPDATE on an ill-formed command. Safe: it only stops. -/
  | malformed
  deriving DecidableEq, Repr

/-- The launch state of R230: hardware reset (R37) with `FAULT`, `OUT` and `TRACE` empty and `pc = 0`; nothing issued
by the host yet (log entries 3, 8, 9). -/
def State.reset : State where
  bound  := none
  buf    := []
  bp     := 0
  total  := 0
  err    := false
  ecause := none
  fault  := none
  out    := []
  trace  := []
  pc     := 0
  port   := .transactions []

/-- `ALG` while bound (R24). -/
def State.alg (s : State) : Option Alg := s.bound.map Binding.alg

end Sys2Proof.Machine
end

