-- ==== Sys2Proof/Machine/Buffer.lean ====
section
/-! DEFINITION. The named operations over the pending buffer: one byte, `MemRead`, `MemWrite` and the zeroing of all
128 bytes (spec R11, R25, R50). -/

namespace Sys2Proof.Machine

/-- What the buffer holds at an offset: a byte, or no value where nothing has been written since power-on. -/
def Memory.get? : Memory → Nat → Option Byte
  | [], _ => none
  | c :: m, o => if c.1 = o then some c.2 else Memory.get? m o

/-- Write one byte, keeping the canonical form. -/
def Memory.set : Memory → Nat → Byte → Memory
  | [], o, b => [(o, b)]
  | c :: m, o, b =>
    if o < c.1 then (o, b) :: c :: m
    else if o = c.1 then (o, b) :: m
    else c :: Memory.set m o b

/-- `buf[o]` as the hardware gives it: where nothing has been written, any value, the free value of
`Config.unwrittenByte` (R37, U2; log entry 3). DESIGN CHOICE; safe. -/
def Memory.byteAt (m : Memory) (o : Nat) : Byte := (m.get? o).getD (Config.unwrittenByte o)

/-- `MemRead(o, n)` (R50). -/
def memRead (m : Memory) (o n : Nat) : List Byte := (List.range' o n).map m.byteAt

/-- `MemWrite(o, n, s)` with `n = len(s)` (R50). -/
def memWrite : Memory → Nat → List Byte → Memory
  | m, _, [] => m
  | m, o, b :: bs => memWrite (m.set o b) (o + 1) bs

/-- The buffer after `MemWrite(0, 128, replicate(128, 0x00))`: all 128 bytes zero (R25, R126). -/
def zeroedBuffer : Memory := (List.range 128).map fun o => (o, 0)

end Sys2Proof.Machine
end

