-- ==== Sys2Proof/Machine/Absorb.lean ====
section
/-! DEFINITION. The procedures the streaming commands share: `Absorb` (spec R120), the padding generator `Pad` (R123) and
the state extraction `Extract` (R125). Each takes the capability as an argument (R8). -/

namespace Sys2Proof.Machine

/-- What `Absorb` reads and writes: `buf`, `BP` (which reaches `B` for an instant inside a command, R26), `H`, and the
record of the calls made (R120, R167). -/
structure Work (f : Family) where
  buf   : Memory
  bp    : Nat
  h     : f.Chain
  trace : List CapCall
  deriving DecidableEq, Repr

/-- The buffer is full: `H <- Compress(fam(ALG), H, MemRead(0, B))`, `BP <- 0` (R120, R162), the call recorded (R167).
The bytes stay in the buffer as stale bytes (D17). -/
def compressFull (cap : Capability) {f : Family} (w : Work f) : Work f :=
  { w with
    bp := 0
    h := cap.compress f w.h (memRead w.buf 0 f.blockBytes)
    trace := w.trace ++ [.compress f w.h (memRead w.buf 0 f.blockBytes)
      (cap.compress f w.h (memRead w.buf 0 f.blockBytes))] }

/-- `MemWrite(BP, a, s)`, `BP <- BP + a`, one run of the absorb loop (R120). -/
def writeRun {f : Family} (w : Work f) (s : List Byte) : Work f :=
  { w with buf := memWrite w.buf w.bp s, bp := w.bp + s.length }

/-- The body of the absorb loop after a run: compress when `BP = B` (R120). -/
def compressIfFull (cap : Capability) {f : Family} (w : Work f) : Work f :=
  if w.bp = f.blockBytes then compressFull cap w else w

/-- The loop of `Absorb` (R120): a run of `a = min(n - i, B - BP)` bytes, a compression when the buffer is full, until
all input is consumed. The first argument bounds the number of runs; `absorb` gives enough, since every run takes at
least one byte while `BP < B`. -/
def absorbLoop (cap : Capability) {f : Family} : Nat → Work f → List Byte → Work f
  | 0, w, _ => w
  | _ + 1, w, [] => w
  | fuel + 1, w, b :: s =>
    absorbLoop cap fuel
      (compressIfFull cap (writeRun w ((b :: s).take (min (s.length + 1) (f.blockBytes - w.bp)))))
      ((b :: s).drop (min (s.length + 1) (f.blockBytes - w.bp)))

/-- `Absorb(s)` (R120); requires `BP < B(ALG)`. -/
def absorb (cap : Capability) {f : Family} (w : Work f) (s : List Byte) : Work f := absorbLoop cap s.length w s

/-- The number `k` of zero bytes in the padding (R123). -/
def padZeros (messageLen blockLen : Nat) : Nat :=
  (blockLen - (messageLen + 1 + blockLen / 8) % blockLen) % blockLen

/-- The number in the padding's length field: the bit length `8·L` (R123, D13). Where it does not fit the field's `F` bytes,
which no admitted message does (R131), it is the free value `Config.oversizeBitLength` (log entry 15). -/
def bitLength (messageLen fieldLen : Nat) : Nat :=
  if 8 * messageLen < 2 ^ (8 * fieldLen) then 8 * messageLen else Config.oversizeBitLength messageLen fieldLen

/-- `Pad(L, B)`: `0x80`, `k` zero bytes, and the bit length in `F = B / 8` big-endian bytes (R123, D13). -/
def pad (messageLen blockLen : Nat) : List Byte :=
  0x80 :: (List.replicate (padZeros messageLen blockLen) 0 ++
    beBytes (blockLen / 8) (bitLength messageLen (blockLen / 8)))

/-- Byte `i` of a chaining state: from word `i / (WW/8)`, shifted by `(WW/8 - 1 - i mod (WW/8)) * 8` bits. For 32-bit
words this is word `i >> 2` and shift `(3 - (i & 3)) * 8`; for 64-bit words word `i >> 3` and `(7 - (i & 7)) * 8`
(R125). Beyond the state's last word, which no digest reaches (R34), it is 0. -/
def stateByte (f : Family) (h : f.Chain) (i : Nat) : Byte :=
  BitVec.ofNat 8 (((h[i / (f.wordBits / 8)]?).getD 0).toNat >>> ((f.wordBits / 8 - 1 - i % (f.wordBits / 8)) * 8))

/-- `Extract(h, n)`: the first `n` bytes of the state, big-endian within each word (R125). -/
def extract (f : Family) (h : f.Chain) (n : Nat) : List Byte := (List.range n).map (stateByte f h)

end Sys2Proof.Machine
end

