-- ==== Sys2Proof/Machine/Flags.lean ====
section
/-! DEFINITION. The status bits: the derived `PHASE` (spec R31, conflict C5), the codes of `ALG` and `ECAUSE` (R73, R201)
and the status word of R180 and R181. The block has no condition codes (R40). -/

namespace Sys2Proof.Machine

/-- `PHASE = 1` (Accumulating) when bound and `TOTAL ≠ 0`, else 0 (R31). -/
def State.phase (s : State) : Bool := s.bound.isSome && s.total != 0

/-- The 4-bit value of `ALG`: the bound code, or `0xF` when unbound (R20, R73). -/
def State.algCode (s : State) : BitVec 4 :=
  match s.bound with
  | none => 0xF
  | some b => b.alg.code

/-- The cause codes the hardware records in `ECAUSE` (R201). -/
def RejectCause.code : RejectCause → BitVec 3
  | .illegal => 1
  | .unbound => 2

/-- The 3-bit value of `ECAUSE` (R30, R181). -/
def ecauseCode : Option RejectCause → BitVec 3
  | none => 0
  | some c => c.code

/-- The status word: `ALG` in 3:0, `PHASE` in 4, `ERR` in 5, `BP` in 14:8, `ECAUSE` in 18:16, every other bit 0
(R180, R181). -/
def statusWord (s : State) : Word :=
  (0 : BitVec 13) ++ ecauseCode s.ecause ++ (0 : BitVec 1) ++ s.bp ++ (0 : BitVec 2) ++ BitVec.ofBool s.err
    ++ BitVec.ofBool s.phase ++ s.algCode

end Sys2Proof.Machine
end

