-- ==== Sys2Proof/Machine/Operands.lean ====
section
/-! DEFINITION. Operand assembly (spec R74) and the Strength Selector (R100). -/

namespace Sys2Proof.Machine

/-- `zext_32(IMM)`: the payload length of UPDATE and the strength bit width of CREATE_BW, as a number (R9, R74). -/
abbrev operandValue (imm : Half) : Nat := imm.toNat

/-- `Select(bw)`, the Strength Selector (R100, conflict C6). -/
def select (bw : Nat) : Alg :=
  if bw > 384 then .sha2_512
  else if bw > 256 then .sha2_384
  else if bw > 224 then .sha2_256
  else .sha2_224

/-- A software strength bit width, any integer, saturated into the field's range 0..65535 (R74, R81, R82). -/
def saturateWidth (bw : Int) : Half :=
  if bw < 0 then 0
  else if bw > 65535 then 65535
  else BitVec.ofNat 16 bw.toNat

end Sys2Proof.Machine
end

