-- ==== Sys2Proof/Machine/Ops.lean ====
section
/-! DEFINITION. The shared operations of the commands: advancing the stream (spec R35), the rejection of a command (R208,
the block's only exception), the reset of the context (R231), and the bodies of CREATE, RESET, UPDATE and DIGEST over a
given capability (R101, R126, R127, R128). -/

namespace Sys2Proof.Machine

/-- `pc <- pc + 1`: the next transaction (R11, R35). -/
def advance (s : State) : State := { s with pc := s.pc + 1 }

/-- `emit(s)`: append bytes to the response stream (R11, R79). -/
def emit (bytes : List Byte) (s : State) : State := { s with out := s.out ++ bytes }

/-- `TOTAL <- TOTAL + len` (R127); no admitted length reaches the width (R27, D15). -/
def countBytes (n : Nat) (s : State) : State := { s with total := BitVec.ofNat 128 (s.total.toNat + n) }

/-- `Reject(cause)` (R208): the first cause is kept in `ECAUSE`, `ERR <- 1`, `pc <- pc + 1`, nothing else of the
hardware changes and nothing is emitted. The model records `FAULT` once (R38, R209) and goes on (log entry 6). There is
no saved state, no mode change, no handler and so no return (R200, R210). -/
def reject (cause : RejectCause) (cw : Word) (s : State) : State :=
  { s with
    ecause := if s.err then s.ecause else some cause
    err := true
    fault := s.fault.or (some ⟨cause, cw, s.pc⟩)
    pc := s.pc + 1 }

/-- A command that needs a bound algorithm, on an unbound engine (R203). -/
def rejectUnbound (i : Instr) (s : State) : State := reject .unbound (encodeWord i) s

/-- The reset shared by RESET, CREATE, CREATE_BW and the end of DIGEST (R231): all 128 buffer bytes zero, `BP` and
`TOTAL` 0, `H <- InitState(a)` (R161), the call recorded in `TRACE`. -/
def resetContext (cap : Capability) (a : Alg) (s : State) : State :=
  { s with
    bound := some ⟨a, cap.initState a⟩
    buf := zeroedBuffer
    bp := 0
    total := 0
    trace := s.trace ++ [.initState a (cap.initState a)] }

/-- What `Absorb` works on, in a state bound to `b`. -/
def State.work (s : State) (b : Binding) : Work b.alg.fam := ⟨s.buf, s.bp.toNat, b.h, s.trace⟩

/-- Write back what `Absorb` wrote: `buf`, `BP`, `H` and the record of calls, nothing else (R120). -/
def State.putWork (s : State) (a : Alg) (w : Work a.fam) : State :=
  { s with
    bound := some ⟨a, w.h⟩
    buf := w.buf
    bp := BitVec.ofNat 7 w.bp
    trace := w.trace }

/-- `Absorb(payload)` in a state bound to `b` (R120). -/
def State.absorb (cap : Capability) (s : State) (b : Binding) (payload : List Byte) : State :=
  s.putWork b.alg (Machine.absorb cap (s.work b) payload)

/-- `CREATE(a)` (R101). -/
def createWith (cap : Capability) (a : Alg) (s : State) : State := advance (resetContext cap a s)

/-- `RESET` (R126). -/
def resetWith (cap : Capability) (s : State) : State :=
  match s.bound with
  | none => rejectUnbound .reset s
  | some b => advance (resetContext cap b.alg s)

/-- `UPDATE(len, payload)` (R127). The checks stand in the order of R207; the last is `Absorb`'s precondition
(log entry 7). -/
def updateWith (cap : Capability) (len : Half) (payload : List Byte) (s : State) : Host.Outcome State Fault Refusal :=
  if payload.length ≠ operandValue len then .refused .malformed
  else
    match s.bound with
    | none => .next (rejectUnbound (.update len payload) s)
    | some b =>
      if s.total.toNat + operandValue len > b.alg.maxMessageBytes then .fault .length
      else if b.alg.blockBytes ≤ s.bp.toNat then .fault .pendingOverflow
      else .next (advance (countBytes (operandValue len) (s.absorb cap b payload)))

/-- The digest bytes of the message absorbed so far: steps (a) to (e) of R128. -/
def digestBytes (cap : Capability) (b : Binding) (s : State) : List Byte :=
  extract b.alg.fam (Machine.absorb cap (s.work b) (pad s.total.toNat b.alg.blockBytes)).h b.alg.digestBytes

/-- `DIGEST` (R128): the padding is absorbed without counting it (R132), the digest extracted, the context reset, the
digest emitted. The check is `Absorb`'s precondition (log entry 7). -/
def digestWith (cap : Capability) (s : State) : Host.Outcome State Fault Refusal :=
  match s.bound with
  | none => .next (rejectUnbound .digest s)
  | some b =>
    if b.alg.blockBytes ≤ s.bp.toNat then .fault .pendingOverflow
    else
      .next (advance (emit (digestBytes cap b s)
        (resetContext cap b.alg (s.absorb cap b (pad s.total.toNat b.alg.blockBytes)))))

/-- `STATUS` (R180). -/
def emitStatus (s : State) : State := advance (emit (wordBytes (statusWord s)) s)

end Sys2Proof.Machine
end

