-- ==== Sys2Proof/Machine/Factory.lean ====
section
/-! DEFINITION. The factory commands CREATE (five forms) and CREATE_BW (spec R101, R102). They are accepted bound or
unbound. -/

namespace Sys2Proof.Machine

/-- `CREATE SHA1` (R101). -/
def execCreateSha1 (s : State) : Host.Outcome State Fault Refusal := .next (createWith Config.capability .sha1 s)

/-- `CREATE SHA2_224` (R101). -/
def execCreateSha2_224 (s : State) : Host.Outcome State Fault Refusal := .next (createWith Config.capability .sha2_224 s)

/-- `CREATE SHA2_256` (R101). -/
def execCreateSha2_256 (s : State) : Host.Outcome State Fault Refusal := .next (createWith Config.capability .sha2_256 s)

/-- `CREATE SHA2_384` (R101). -/
def execCreateSha2_384 (s : State) : Host.Outcome State Fault Refusal := .next (createWith Config.capability .sha2_384 s)

/-- `CREATE SHA2_512` (R101). -/
def execCreateSha2_512 (s : State) : Host.Outcome State Fault Refusal := .next (createWith Config.capability .sha2_512 s)

/-- `CREATE_BW bw`: `CREATE(Select(bw))`, which advances `pc` once (R102). -/
def execCreateBw (bw : Half) (s : State) : Host.Outcome State Fault Refusal :=
  .next (createWith Config.capability (select (operandValue bw)) s)

end Sys2Proof.Machine
end

