-- ==== Sys2Proof/Machine/Status.lean ====
section
/-! DEFINITION. The STATUS command (spec R180). -/

namespace Sys2Proof.Machine

/-- `STATUS`: emit the status word, change nothing else (R180). -/
def execStatus (s : State) : Host.Outcome State Fault Refusal := .next (emitStatus s)

end Sys2Proof.Machine
end

