-- ==== Sys2Proof/Machine/Streaming.lean ====
section
/-! DEFINITION. The streaming commands UPDATE, DIGEST and RESET (spec R126, R127, R128). -/

namespace Sys2Proof.Machine

/-- `UPDATE` of `len` payload bytes (R127). -/
def execUpdate (len : Half) (payload : List Byte) (s : State) : Host.Outcome State Fault Refusal :=
  updateWith Config.capability len payload s

/-- `DIGEST` (R128). -/
def execDigest (s : State) : Host.Outcome State Fault Refusal := digestWith Config.capability s

/-- `RESET` (R126). -/
def execReset (s : State) : Host.Outcome State Fault Refusal := .next (resetWith Config.capability s)

end Sys2Proof.Machine
end

