-- ==== Sys2Proof/Machine/Dispatch.lean ====
section
/-! DEFINITION. The meaning of every command, one arm per constructor of Instr (spec R72). -/

namespace Sys2Proof.Machine

def exec (i : Instr) (s : State) : Host.Outcome State Fault Refusal :=
  match i with
  | .createSha1 => Sys2Proof.Machine.execCreateSha1 s
  | .createSha2_224 => Sys2Proof.Machine.execCreateSha2_224 s
  | .createSha2_256 => Sys2Proof.Machine.execCreateSha2_256 s
  | .createSha2_384 => Sys2Proof.Machine.execCreateSha2_384 s
  | .createSha2_512 => Sys2Proof.Machine.execCreateSha2_512 s
  | .createBw bw => Sys2Proof.Machine.execCreateBw bw s
  | .update len payload => Sys2Proof.Machine.execUpdate len payload s
  | .digest => Sys2Proof.Machine.execDigest s
  | .reset => Sys2Proof.Machine.execReset s
  | .status => Sys2Proof.Machine.execStatus s

end Sys2Proof.Machine
end

