-- ==== Sys2Proof/Machine/Fetch.lean ====
section
/-! DEFINITION. Taking the next transaction from the host's command stream (spec R50, R57, R70, R77, R78), and placing one
in front of it. -/

namespace Sys2Proof.Machine

/-- What the engine finds at its host port. -/
inductive Fetched where
  /-- A command, and the stream after its transaction. -/
  | command (i : Instr) (rest : HostPort)
  /-- An illegal word (R76), and the stream after it. -/
  | illegal (cw : Word) (rest : HostPort)
  /-- A transaction whose payload length is wrong (R70, R205). -/
  | malformed
  /-- No whole transaction yet: the engine waits and holds its state (R217, R236). -/
  | waiting
  deriving DecidableEq, Repr

/-- The boundary check of R205 comes before the decoding of the word (R207). -/
def fetchTxn (t : Txn) (rest : HostPort) : Fetched :=
  if t.payload.length ≠ paylen t.cw then .malformed
  else
    match decode t.cw t.payload with
    | .command i => .command i rest
    | .illegal cw => .illegal cw rest

/-- The next transaction of the host's stream, in the order the host issued them (R57). -/
def fetch : HostPort → Fetched
  | .transactions [] => .waiting
  | .transactions (t :: q) => fetchTxn t (.transactions q)
  | .bytes stream =>
    match decodeBytes stream with
    | .command i rest => .command i (.bytes rest)
    | .illegal cw rest => .illegal cw (.bytes rest)
    | .wait => .waiting

/-- Put a transaction in front of the host's stream. -/
def HostPort.push (t : Txn) : HostPort → HostPort
  | .transactions q => .transactions (t :: q)
  | .bytes stream => .bytes (txnBytes t ++ stream)

/-- An illegal word is rejected with cause ILLEGAL (R202, R208). -/
def rejectIllegal (cw : Word) (s : State) : State := reject .illegal cw s

end Sys2Proof.Machine
end

