-- ==== Sys2Proof/Machine/Step.lean ====
section
/-! DEFINITION. One step of the engine: take one transaction of the host's stream and execute it whole (spec R57, R239),
and the placing of a transaction in front of the stream. -/

namespace Sys2Proof.Machine

/-- One transaction: a command is executed (R57), an illegal word rejected (R202), a malformed transaction refused
(R205); while no whole transaction is there the engine holds its state (R217, R236; log entry 8). -/
def step (s : State) : Host.Outcome State Fault Refusal :=
  match fetch s.port with
  | .command i rest => exec i { s with port := rest }
  | .illegal cw rest => .next (rejectIllegal cw { s with port := rest })
  | .malformed => .refused .malformed
  | .waiting => .next s

/-- `s` with the transaction whose bits are `w` in front of the host's stream, so that the next step takes it
(log entries 9 and 12). -/
def State.withFetchWord (s : State) (nbits w : Nat) : State := { s with port := s.port.push (tableTxn nbits w) }

end Sys2Proof.Machine
end

