-- ==== Sys2Proof/Machine/Assembler.lean ====
section
/-! DEFINITION. The written form of a command stream: the assembler syntax of spec R81 and the pseudo-instructions of R82,
from a line's text to the transactions it stands for. -/

namespace Sys2Proof.Machine

/-- One line of the assembler (R81, R82); a strength bit width is any integer (R82). -/
inductive AsmLine where
  | create (a : Alg)
  | createBw (bw : Int)
  | update (data : List Byte)
  | digest
  | reset
  | status
  /-- `.word <w>`: a raw word with no payload. -/
  | word (w : Word)
  | hash (a : Alg) (data : List Byte)
  | hashBw (bw : Int) (data : List Byte)
  deriving DecidableEq, Repr

/-- The pieces of at most 65535 bytes that a long UPDATE is split into (R82): full ones and a last one of the
remaining bytes. The first argument bounds the number of cuts. -/
def splitData : Nat → List Byte → List (List Byte)
  | 0, data => [data]
  | fuel + 1, data =>
    if data.length ≤ 65535 then [data] else data.take 65535 :: splitData fuel (data.drop 65535)

/-- The UPDATE command of a piece of at most 65535 bytes, `len` computed by the assembler (R81). -/
def updateCommand (piece : List Byte) : Instr := .update (BitVec.ofNat 16 piece.length) piece

/-- The UPDATE commands of a data operand (R81, R82). -/
def updateCommands (data : List Byte) : List Instr := (splitData data.length data).map updateCommand

/-- The transactions of a line: its own, or its expansion's (R81, R82). -/
def assembleLine : AsmLine → List Txn
  | .create a => [encodeTxn (Instr.create a)]
  | .createBw bw => [encodeTxn (.createBw (saturateWidth bw))]
  | .update data => (updateCommands data).map encodeTxn
  | .digest => [encodeTxn .digest]
  | .reset => [encodeTxn .reset]
  | .status => [encodeTxn .status]
  | .word w => [⟨w, []⟩]
  | .hash a data => encodeTxn (Instr.create a) :: ((updateCommands data).map encodeTxn ++ [encodeTxn .digest])
  | .hashBw bw data =>
    encodeTxn (.createBw (saturateWidth bw)) :: ((updateCommands data).map encodeTxn ++ [encodeTxn .digest])

/-- The transactions of a text given line by line. -/
def assemble (lines : List AsmLine) : List Txn := lines.flatMap assembleLine

/-! ### Text (R81)

The reading of a line's characters. Conventions R81 leaves open are in log entry 13. -/

/-- The tokens of a line. -/
inductive AsmToken where
  /-- A mnemonic or an algorithm name, in capitals (R81: "case-insensitive"). -/
  | name (cs : List Char)
  | number (v : Int)
  /-- A quoted string or a hex string: its bytes. -/
  | literal (bs : List Byte)
  | star
  | join
  | comma
  deriving DecidableEq, Repr

def isDigit (c : Char) : Bool := decide (48 ≤ c.toNat ∧ c.toNat ≤ 57)

def isLetter (c : Char) : Bool :=
  decide ((65 ≤ c.toNat ∧ c.toNat ≤ 90) ∨ (97 ≤ c.toNat ∧ c.toNat ≤ 122))

/-- A character of a mnemonic or an algorithm name. -/
def isNameChar (c : Char) : Bool := isLetter c || isDigit c || c == '_' || c == '.'

def capital (c : Char) : Char := if 97 ≤ c.toNat ∧ c.toNat ≤ 122 then Char.ofNat (c.toNat - 32) else c

/-- The value of a hexadecimal digit. -/
def hexValue (c : Char) : Option Nat :=
  if isDigit c then some (c.toNat - 48)
  else if 97 ≤ c.toNat ∧ c.toNat ≤ 102 then some (c.toNat - 87)
  else if 65 ≤ c.toNat ∧ c.toNat ≤ 70 then some (c.toNat - 55)
  else none

/-- A number in decimal, or in hexadecimal after `0x` (R81). -/
def numberValue : List Char → Option Nat
  | [] => none
  | '0' :: 'x' :: d :: ds =>
    (d :: ds).foldl (fun acc c => acc.bind fun n => (hexValue c).map fun v => 16 * n + v) (some 0)
  | d :: ds =>
    (d :: ds).foldl (fun acc c => acc.bind fun n => if isDigit c then some (10 * n + (c.toNat - 48)) else none) (some 0)

/-- The bytes of a hex string: an even number of digits. -/
def hexBytes : List Char → Option (List Byte)
  | [] => some []
  | a :: b :: cs => do
    let hi ← hexValue a
    let lo ← hexValue b
    let rest ← hexBytes cs
    return BitVec.ofNat 8 (16 * hi + lo) :: rest
  | [_] => none

/-- The bytes of a quoted ASCII string, "each character its byte" (R81). -/
def asciiBytes (cs : List Char) : Option (List Byte) :=
  cs.mapM fun c => if c.toNat < 128 then some (BitVec.ofNat 8 c.toNat) else none

/-- The characters up to the closing quote, and those after it. -/
def upToQuote : List Char → Option (List Char × List Char)
  | [] => none
  | '"' :: cs => some ([], cs)
  | c :: cs => (upToQuote cs).map fun p => (c :: p.1, p.2)

/-- The tokens of a line; `;` outside a quoted string begins a comment. The first argument bounds the number of tokens
and blanks. -/
def lexLine : Nat → List Char → Option (List AsmToken)
  | _, [] => some []
  | 0, _ :: _ => none
  | _ + 1, ';' :: _ => some []
  | fuel + 1, '*' :: cs => (lexLine fuel cs).map (.star :: ·)
  | fuel + 1, ',' :: cs => (lexLine fuel cs).map (.comma :: ·)
  | fuel + 1, '+' :: '+' :: cs => (lexLine fuel cs).map (.join :: ·)
  | fuel + 1, '"' :: cs => do
    let p ← upToQuote cs
    let bs ← asciiBytes p.1
    (lexLine fuel p.2).map (.literal bs :: ·)
  | fuel + 1, 'x' :: '"' :: cs => do
    let p ← upToQuote cs
    let bs ← hexBytes p.1
    (lexLine fuel p.2).map (.literal bs :: ·)
  | fuel + 1, c :: cs =>
    if c == ' ' || c == '\t' then lexLine fuel cs
    else if c == '-' then do
      let v ← numberValue (cs.takeWhile isNameChar)
      (lexLine fuel (cs.dropWhile isNameChar)).map (.number (-v) :: ·)
    else if isDigit c then do
      let v ← numberValue ((c :: cs).takeWhile isNameChar)
      (lexLine fuel ((c :: cs).dropWhile isNameChar)).map (.number v :: ·)
    else if isNameChar c then
      (lexLine fuel ((c :: cs).dropWhile isNameChar)).map
        (.name (((c :: cs).takeWhile isNameChar).map capital) :: ·)
    else none

/-- The algorithm names of R81. -/
def algOfName (cs : List Char) : Option Alg :=
  if cs = ['S', 'H', 'A', '1'] then some .sha1
  else if cs = ['S', 'H', 'A', '2', '_', '2', '2', '4'] then some .sha2_224
  else if cs = ['S', 'H', 'A', '2', '_', '2', '5', '6'] then some .sha2_256
  else if cs = ['S', 'H', 'A', '2', '_', '3', '8', '4'] then some .sha2_384
  else if cs = ['S', 'H', 'A', '2', '_', '5', '1', '2'] then some .sha2_512
  else none

/-- `<data>`: literals and repetitions `<byte> * <count>` joined by `++` (R81). -/
def dataOf : List AsmToken → Option (List Byte)
  | [.literal bs] => some bs
  | .literal bs :: .join :: rest => (dataOf rest).map (bs ++ ·)
  | [.number b, .star, .number n] =>
    if 0 ≤ b ∧ b < 256 ∧ 0 ≤ n then some (List.replicate n.toNat (BitVec.ofNat 8 b.toNat)) else none
  | .number b :: .star :: .number n :: .join :: rest =>
    if 0 ≤ b ∧ b < 256 ∧ 0 ≤ n then
      (dataOf rest).map (List.replicate n.toNat (BitVec.ofNat 8 b.toNat) ++ ·)
    else none
  | _ => none

/-- A line without operands. -/
def plainLine (mnemonic : List Char) : Option AsmLine :=
  if mnemonic = ['D', 'I', 'G', 'E', 'S', 'T'] then some .digest
  else if mnemonic = ['R', 'E', 'S', 'E', 'T'] then some .reset
  else if mnemonic = ['S', 'T', 'A', 'T', 'U', 'S'] then some .status
  else none

/-- A line with operands (R81, R82). -/
def operandLine (mnemonic : List Char) (operands : List AsmToken) : Option AsmLine :=
  if mnemonic = ['U', 'P', 'D', 'A', 'T', 'E'] then (dataOf operands).map .update
  else if mnemonic = ['C', 'R', 'E', 'A', 'T', 'E'] then
    match operands with
    | [.name a] => (algOfName a).map .create
    | _ => none
  else if mnemonic = ['C', 'R', 'E', 'A', 'T', 'E', '_', 'B', 'W'] then
    match operands with
    | [.number bw] => some (.createBw bw)
    | _ => none
  else if mnemonic = ['.', 'W', 'O', 'R', 'D'] then
    match operands with
    | [.number w] => if 0 ≤ w ∧ w < 2 ^ 32 then some (.word (BitVec.ofNat 32 w.toNat)) else none
    | _ => none
  else if mnemonic = ['H', 'A', 'S', 'H'] then
    match operands with
    | .name a :: .comma :: rest => do
      let alg ← algOfName a
      let data ← dataOf rest
      return .hash alg data
    | _ => none
  else if mnemonic = ['H', 'A', 'S', 'H', '_', 'B', 'W'] then
    match operands with
    | .number bw :: .comma :: rest => (dataOf rest).map (.hashBw bw)
    | _ => none
  else none

/-- The line written by a text: `none` where the text is no line of R81 or R82, and no line for a blank one. -/
def parseLine (text : List Char) : Option (List AsmLine) :=
  match lexLine text.length text with
  | none => none
  | some [] => some []
  | some [.name m] => (plainLine m).map fun l => [l]
  | some (.name m :: operands) => (operandLine m operands).map fun l => [l]
  | some _ => none

end Sys2Proof.Machine
end

