-- ==== Sys2Proof/Machine/System.lean ====
section
/-! DEFINITION. Several engine instances side by side (spec R62, R215): each holds its own state, a step is one instance's,
and nothing is shared. -/

namespace Sys2Proof.Machine

/-- `n` engine instances; an instance has no identifier of its own, only its place here (R215). -/
structure System (n : Nat) where
  engines : Vector State n
  deriving DecidableEq, Repr

/-- Every instance right after hardware reset. -/
def systemReset (n : Nat) : System n := ⟨Vector.replicate n State.reset⟩

/-- Instance `k` takes one transaction of its own stream (R57, R62). DESIGN CHOICE; safe (log entry 10): the spec speaks of
one instance's run only (R62, R209, R242), and where that instance's step faults (LENGTH) or is refused (malformed) the
model makes this the outcome of the whole system, with no next `System` state for the other instances, which the hardware
lets go on. -/
def systemStep {n : Nat} (k : Fin n) (sys : System n) : Host.Outcome (System n) Fault Refusal :=
  match step sys.engines[k] with
  | .next s => .next ⟨sys.engines.set k s⟩
  | .fault r => .fault r
  | .refused r => .refused r

/-- The `N_INSTANCES` engines of this system (R8). -/
abbrev Installation := System Config.nInstances

end Sys2Proof.Machine
end

