-- ==== Sys2Proof/Safety.lean ====
section
/-! DEFINITION. The terms the claims use: executing a list of commands, the invariant of the engine, the linked record of
capability calls, the blocks of a message, and states that differ only in stale bytes. -/

namespace Sys2Proof.Machine

/-- Execute commands one after another, stopping at the first that gives no next state (R57). -/
def execAll : List Instr → State → Host.Outcome State Fault Refusal
  | [], s => .next s
  | i :: is, s =>
    match exec i s with
    | .next t => execAll is t
    | .fault r => .fault r
    | .refused r => .refused r

/-- The complete blocks of a byte sequence, `S[k·B .. k·B+B)` for `k < floor(len(S)/B)` (R122). -/
def blocks (blockLen : Nat) (bytes : List Byte) : List (List Byte) :=
  (List.range (bytes.length / blockLen)).map fun k => (bytes.drop (k * blockLen)).take blockLen

/-- `foldl (λ h blk. Compress(f, h, blk)) h blks` (R122, R134). -/
def compressAll (cap : Capability) (f : Family) (h : f.Chain) (blks : List (List Byte)) : f.Chain :=
  blks.foldl (cap.compress f) h

/-- The digest of a message as a function: the Merkle–Damgård construction of R134. -/
def digestOf (cap : Capability) (a : Alg) (message : List Byte) : List Byte :=
  extract a.fam
    (compressAll cap a.fam (cap.initState a)
      (blocks a.blockBytes (message ++ pad message.length a.blockBytes)))
    a.digestBytes

/-- What holds of every state between commands (R26, R30, R33, R38, R131): the buffer is in canonical form; a bound
engine has all 128 buffer bytes written, `BP < B(ALG)`, `BP = TOTAL mod B(ALG)` and `TOTAL ≤ LMAX(ALG)`; an unbound
engine has `BP = 0` and `TOTAL = 0`; `ERR`, `ECAUSE` and `FAULT` tell of the same first rejection. -/
structure State.Inv (s : State) : Prop where
  buf_wf : s.buf.wf = true
  bound_ok : ∀ b, s.bound = some b →
    s.bp.toNat < b.alg.blockBytes ∧ s.bp.toNat = s.total.toNat % b.alg.blockBytes ∧
      s.total.toNat ≤ b.alg.maxMessageBytes ∧ ∀ o < 128, (s.buf.get? o).isSome = true
  unbound_ok : s.bound = none → s.bp = 0 ∧ s.total = 0
  err_ecause : s.err = s.ecause.isSome
  fault_ecause : s.fault.map FaultRecord.cause = s.ecause
  fault_pc : ∀ r, s.fault = some r → r.pc < s.pc

/-- A record of capability calls is linked, ending in the given state value: it begins with `InitState`, each
`Compress` takes the state the previous call returned and a block of exactly `B` bytes, and each result is the
capability's (R29, R161, R162, R164). -/
inductive TraceLinked (cap : Capability) : List CapCall → Option (Σ f : Family, f.Chain) → Prop where
  | nil : TraceLinked cap [] none
  | initState (calls : List CapCall) (h : Option (Σ f : Family, f.Chain)) (a : Alg) :
      TraceLinked cap calls h →
        TraceLinked cap (calls ++ [.initState a (cap.initState a)]) (some ⟨a.fam, cap.initState a⟩)
  | compress (calls : List CapCall) (f : Family) (h : f.Chain) (block : List Byte) :
      TraceLinked cap calls (some ⟨f, h⟩) → block.length = f.blockBytes →
        TraceLinked cap (calls ++ [.compress f h block (cap.compress f h block)]) (some ⟨f, cap.compress f h block⟩)

/-- `H` with its shape, `none` while unbound. -/
def State.chain (s : State) : Option (Σ f : Family, f.Chain) := s.bound.map fun b => ⟨b.alg.fam, b.h⟩

/-- The state value a capability call returned (R161, R162). -/
def resultOf : CapCall → Σ f : Family, f.Chain
  | .initState a h => ⟨a.fam, h⟩
  | .compress f _ _ h => ⟨f, h⟩

/-- The block a `Compress` call was made on (R162). -/
def blockOf : CapCall → Option (List Byte)
  | .initState _ _ => none
  | .compress _ _ block _ => some block

/-- The states of the engine's state machine that are observable between commands (R32). -/
inductive EnginePhase where
  | unbound
  | fresh
  | accumulating
  deriving DecidableEq, Repr

/-- Where a state stands in the state machine of R32: Fresh is `PHASE = 0` while bound, Accumulating is `PHASE = 1`. -/
def State.enginePhase (s : State) : EnginePhase :=
  if s.bound.isNone then .unbound else if s.phase then .accumulating else .fresh

/-- Two states with the same Engine Context: the binding with `H`, the buffer, `BP` and `TOTAL` (R12). -/
structure SameContext (s t : State) : Prop where
  bound : s.bound = t.bound
  buf   : s.buf = t.buf
  bp    : s.bp = t.bp
  total : s.total = t.total

/-- Two states that agree on everything but the stale bytes `buf[BP..128)` (R39, U4). -/
structure StaleEq (s t : State) : Prop where
  rest : t = { s with buf := t.buf }
  pending : ∀ o < s.bp.toNat, s.buf.byteAt o = t.buf.byteAt o

/-- Both outcomes are of one kind, with the same reason, or next states related by `R`. -/
def OutcomeRel (R : State → State → Prop) :
    Host.Outcome State Fault Refusal → Host.Outcome State Fault Refusal → Prop
  | .next s, .next t => R s t
  | .fault q, .fault r => q = r
  | .refused q, .refused r => q = r
  | _, _ => False

end Sys2Proof.Machine
end

