-- ==== Sys2Proof/Certificates/Slice0/Obligations.lean ====
section
/-! DEFINITION. The statements for the provers: the rules of the spec that say what a command or the machine does. -/

open Sys2Proof Sys2Proof.Machine

/-! ### Encoding -/

/-- Words written out from the fields of R71 and the table of R75, at least one per family, decode to the commands they
stand for, and reserved words are rejected by name (95_test_vectors.md section 2.1). -/
def Obligations.DecodesWordsOfEveryFamily : Prop :=
  decode 0x00000021 [] = .command .createSha2_256 ∧ decode 0x00000041 [] = .command .createSha2_512 ∧
  decode 0x01000002 [] = .command (.createBw 256) ∧
  decode 0x00030003 [0x61, 0x62, 0x63] = .command (.update 3 [0x61, 0x62, 0x63]) ∧
  decode 0x00000004 [] = .command .digest ∧ decode 0x00000005 [] = .command .reset ∧
  decode 0x00000006 [] = .command .status ∧
  decode 0x00000000 [] = .illegal 0x00000000 ∧ decode 0x00000051 [] = .illegal 0x00000051 ∧
  decode 0x00000101 [] = .illegal 0x00000101 ∧ decode 0x00010004 [] = .illegal 0x00010004

/-- R75, the table of legal words: each command's condition on the word, and every other word illegal. -/
def Obligations.LegalWordsAreTheListedOnes : Prop :=
  ∀ (cw : Word) (payload : List Byte),
    (∀ a : Alg, decode cw payload = .command (Instr.create a) ↔
      cw.extractLsb' 0 4 = 1 ∧ cw.extractLsb' 4 4 = a.code ∧ cw.extractLsb' 8 8 = 0 ∧ cw.extractLsb' 16 16 = 0) ∧
    (∀ bw : Half, decode cw payload = .command (.createBw bw) ↔
      cw.extractLsb' 0 4 = 2 ∧ cw.extractLsb' 4 4 = 0 ∧ cw.extractLsb' 8 8 = 0 ∧ cw.extractLsb' 16 16 = bw) ∧
    (∀ (len : Half) (p : List Byte), decode cw payload = .command (.update len p) ↔
      cw.extractLsb' 0 4 = 3 ∧ cw.extractLsb' 4 4 = 0 ∧ cw.extractLsb' 8 8 = 0 ∧ cw.extractLsb' 16 16 = len ∧
        p = payload) ∧
    (decode cw payload = .command .digest ↔ cw = 0x00000004) ∧
    (decode cw payload = .command .reset ↔ cw = 0x00000005) ∧
    (decode cw payload = .command .status ↔ cw = 0x00000006) ∧
    (decode cw payload = .illegal cw ↔
      ¬ (cw.extractLsb' 0 4 = 1 ∧ cw.extractLsb' 4 4 ≤ 4 ∧ cw.extractLsb' 8 8 = 0 ∧ cw.extractLsb' 16 16 = 0) ∧
      ¬ (cw.extractLsb' 0 4 = 2 ∧ cw.extractLsb' 4 4 = 0 ∧ cw.extractLsb' 8 8 = 0) ∧
      ¬ (cw.extractLsb' 0 4 = 3 ∧ cw.extractLsb' 4 4 = 0 ∧ cw.extractLsb' 8 8 = 0) ∧
      cw ≠ 0x00000004 ∧ cw ≠ 0x00000005 ∧ cw ≠ 0x00000006)

/-- The payload length of a word (R77): `len` when it decodes to UPDATE, 0 for every other word, illegal ones too. -/
def Obligations.PayloadLengthFollowsDecoding : Prop :=
  ∀ (cw : Word) (payload : List Byte),
    (∀ len p, decode cw payload = .command (.update len p) → paylen cw = len.toNat) ∧
    ((∀ len p, decode cw payload ≠ .command (.update len p)) → paylen cw = 0)

/-- Decode and encode agree: the bytes of every well-formed command decode to it, with every operand, and leave what
follows (R75, R77, R78). -/
def Obligations.DecodeOfEncodeIsTheCommand : Prop :=
  ∀ (i : Instr) (rest : List Byte), i.WellFormed → decodeBytes (encode i ++ rest) = .command i rest

/-- Each byte stream has one reading: what decodes to a command is that command's bytes, and the command is well-formed
(R75, R77, R78). -/
def Obligations.DecodedBytesAreTheEncoding : Prop :=
  ∀ (bytes rest : List Byte) (i : Instr), decodeBytes bytes = .command i rest →
    i.WellFormed ∧ bytes = encode i ++ rest

/-- After an illegal word the next byte begins the next command word (R77, R78): an illegal word takes its four bytes
and no payload. -/
def Obligations.IllegalWordTakesFourBytes : Prop :=
  ∀ (cw : Word) (rest : List Byte), decode cw [] = .illegal cw →
    paylen cw = 0 ∧ decodeBytes (wordBytes cw ++ rest) = .illegal cw rest

/-- The command written by a long data operand is split into UPDATEs of at most 65535 bytes that carry the data in
order, and a strength out of the field's range selects what the saturated one selects (R82). -/
def Obligations.PseudoInstructionsKeepTheirOperands : Prop :=
  (∀ data : List Byte, (updateCommands data).flatMap payloadOf = data ∧
    ∀ i ∈ updateCommands data, i.WellFormed ∧ ∃ piece, i = updateCommand piece ∧ piece.length ≤ 65535) ∧
  (∀ bw : Int, select (saturateWidth bw).toNat = select bw.toNat)

/-! ### The step -/

/-- A step runs the decoded command: on a transaction port and on a byte-serial port the step is `exec` of the command
found, with the host's stream moved past it (R57, R70, R78). -/
def Obligations.StepRunsTheDecodedCommand : Prop :=
  (∀ (s : State) (t : Txn) (q : List Txn) (i : Instr), s.port = .transactions (t :: q) →
    t.payload.length = paylen t.cw → decode t.cw t.payload = .command i →
      step s = exec i { s with port := .transactions q }) ∧
  (∀ (s : State) (bytes rest : List Byte) (i : Instr), s.port = .bytes bytes →
    decodeBytes bytes = .command i rest → step s = exec i { s with port := .bytes rest })

/-- R202: an illegal word is rejected with cause ILLEGAL, the next transaction begins right after it, nothing but `ERR`
and `ECAUSE` changes, beside `pc`, which every transaction advances (R35), and the model's own record `FAULT` (R38). That the
model goes on (R209) and what it records is its own choice (log entry 6). -/
def Obligations.IllegalWordIsRejected : Prop :=
  ∀ (s : State) (cw : Word), decode cw [] = .illegal cw →
    (∀ q, s.port = .transactions (⟨cw, []⟩ :: q) →
      step s = .next
        { s with
          err := true
          ecause := if s.err then s.ecause else some .illegal
          fault := if s.fault.isSome then s.fault else some ⟨.illegal, cw, s.pc⟩
          pc := s.pc + 1
          port := .transactions q }) ∧
    (∀ rest, s.port = .bytes (wordBytes cw ++ rest) →
      step s = .next
        { s with
          err := true
          ecause := if s.err then s.ecause else some .illegal
          fault := if s.fault.isSome then s.fault else some ⟨.illegal, cw, s.pc⟩
          pc := s.pc + 1
          port := .bytes rest })

/-- A transaction whose payload length differs from `paylen(cw)` is refused and has no meaning; on a byte-serial port that
cannot occur (R205). -/
def Obligations.MalformedTransactionIsRefused : Prop :=
  (∀ (s : State) (t : Txn) (q : List Txn), s.port = .transactions (t :: q) → t.payload.length ≠ paylen t.cw →
    step s = .refused .malformed) ∧
  (∀ (s : State) (len : Half) (payload : List Byte), payload.length ≠ len.toNat →
    exec (.update len payload) s = .refused .malformed) ∧
  (∀ (s : State) (bytes : List Byte), s.port = .bytes bytes → step s ≠ .refused .malformed)

/-- Between transactions the engine holds its state (R217), and it waits while the word or the payload of a byte-serial
transaction is incomplete (R236). That such a step answers the same state is the model's choice (log entry 8). -/
def Obligations.IdleEngineHoldsItsState : Prop :=
  ∀ s : State, (s.port = .transactions [] → step s = .next s) ∧
    (∀ bytes, s.port = .bytes bytes → bytes.length < 4 → step s = .next s) ∧
    (∀ cw rest, s.port = .bytes (wordBytes cw ++ rest) → rest.length < paylen cw → step s = .next s)

/-- A byte-serial port carrying the bytes of well-formed transactions runs as the transaction port does, step by step
(R53, R78). -/
def Obligations.ByteSerialPortRunsAlike : Prop :=
  ∀ (s : State) (ts : List Txn), (∀ t ∈ ts, t.WellFormed) →
    OutcomeRel
      (fun t u => ∃ q, (∀ x ∈ q, x.WellFormed) ∧ t.port = .transactions q ∧
        u = { t with port := .bytes (q.flatMap txnBytes) })
      (step { s with port := .transactions ts }) (step { s with port := .bytes (ts.flatMap txnBytes) })

/-! ### CREATE, CREATE_BW, RESET -/

/-- R100, the Strength Selector: the four cases, the boundary values, never SHA1, monotone, and saturation. -/
def Obligations.StrengthSelectorThresholds : Prop :=
  (∀ bw : Nat, (bw > 384 → select bw = .sha2_512) ∧ (256 < bw ∧ bw ≤ 384 → select bw = .sha2_384) ∧
    (224 < bw ∧ bw ≤ 256 → select bw = .sha2_256) ∧ (bw ≤ 224 → select bw = .sha2_224)) ∧
  (∀ bw : Nat, select bw ≠ .sha1) ∧
  (∀ v w : Nat, v ≤ w → (select v).code ≤ (select w).code) ∧
  (∀ bw : Int, (65535 < bw → select (saturateWidth bw).toNat = .sha2_512 ∧ select 65535 = .sha2_512) ∧
    (bw < 0 → select (saturateWidth bw).toNat = .sha2_224 ∧ select 0 = .sha2_224))

/-- R101: each of the five CREATE commands completes in every state, binds its algorithm, zeroes the whole buffer, `BP` and
`TOTAL`, sets `H` to `InitState(alg)` with one recorded call, emits nothing and leaves the error record; with the
algorithm already bound it has exactly the effect of RESET. -/
def Obligations.CreateBindsAndResets : Prop :=
  ∀ (a : Alg) (s : State), ∃ t, exec (Instr.create a) s = .next t ∧
    t.bound = some ⟨a, Config.capability.initState a⟩ ∧ (∀ o < 128, t.buf.get? o = some 0) ∧ t.bp = 0 ∧ t.total = 0 ∧
    t.trace = s.trace ++ [.initState a (Config.capability.initState a)] ∧ t.pc = s.pc + 1 ∧ t.phase = false ∧
    t.err = s.err ∧ t.ecause = s.ecause ∧ t.fault = s.fault ∧ t.out = s.out ∧ t.port = s.port ∧
    (s.alg = some a → exec .reset s = .next t)

/-- R102: CREATE_BW completes in every state as CREATE of the algorithm the Strength Selector picks, and never binds
SHA1. -/
def Obligations.CreateBwBindsTheSelected : Prop :=
  ∀ (bw : Half) (s : State), exec (.createBw bw) s = exec (Instr.create (select bw.toNat)) s ∧
    ∃ t, exec (.createBw bw) s = .next t ∧
      t.bound = some ⟨select bw.toNat, Config.capability.initState (select bw.toNat)⟩ ∧ t.alg ≠ some .sha1 ∧
      (∀ o < 128, t.buf.get? o = some 0) ∧ t.bp = 0 ∧ t.total = 0 ∧
      t.trace = s.trace ++ [.initState (select bw.toNat) (Config.capability.initState (select bw.toNat))] ∧
      t.pc = s.pc + 1 ∧ t.err = s.err ∧ t.ecause = s.ecause ∧ t.fault = s.fault ∧ t.out = s.out ∧ t.port = s.port

/-- R126: RESET of a bound engine completes: the context of the bound algorithm is reset, `ALG` and the error record stay,
nothing is emitted. -/
def Obligations.ResetReturnsToFresh : Prop :=
  ∀ (s : State) (b : Binding), s.bound = some b → ∃ t, exec .reset s = .next t ∧
    t.bound = some ⟨b.alg, Config.capability.initState b.alg⟩ ∧ (∀ o < 128, t.buf.get? o = some 0) ∧ t.bp = 0 ∧
    t.total = 0 ∧ t.phase = false ∧
    t.trace = s.trace ++ [.initState b.alg (Config.capability.initState b.alg)] ∧ t.pc = s.pc + 1 ∧
    t.err = s.err ∧ t.ecause = s.ecause ∧ t.fault = s.fault ∧ t.out = s.out ∧ t.port = s.port

/-! ### UPDATE -/

/-- R120, the counts of `Absorb`: `BP` ends at `(p + n) mod B`, exactly `floor((p + n) / B)` calls to `Compress` are made,
each on a block of exactly `B` bytes; for every capability. -/
def Obligations.AbsorbCountsItsCalls : Prop :=
  ∀ (cap : Capability) (f : Family) (w : Work f) (s : List Byte), w.bp < f.blockBytes →
    (absorb cap w s).bp = (w.bp + s.length) % f.blockBytes ∧
    ∃ calls, (absorb cap w s).trace = w.trace ++ calls ∧ calls.length = (w.bp + s.length) / f.blockBytes ∧
      ∀ c ∈ calls, ∃ block, blockOf c = some block ∧ block.length = f.blockBytes

/-- R121, chunking is invisible: absorbing `x` and then `y` leaves the buffer, `BP` and `H`, and makes the same calls with
the same arguments in the same order, as absorbing `x ++ y`; for every capability. -/
def Obligations.AbsorbChunkingIsInvisible : Prop :=
  ∀ (cap : Capability) (f : Family) (w : Work f) (x y : List Byte), w.bp < f.blockBytes →
    absorb cap (absorb cap w x) y = absorb cap w (x ++ y)

/-- R122, the closed form: from `BP = 0`, absorbing `S` folds `Compress` over the complete blocks of `S`, leaves
`len(S) mod B` pending, which are the last bytes of `S`, and calls `Compress` on exactly the blocks of `S`, so nothing that
was in the buffer before reaches it; for every capability. -/
def Obligations.AbsorbClosedForm : Prop :=
  ∀ (cap : Capability) (f : Family) (w : Work f) (s : List Byte), w.bp = 0 →
    (absorb cap w s).h = compressAll cap f w.h (blocks f.blockBytes s) ∧
    (absorb cap w s).bp = s.length % f.blockBytes ∧
    (∀ o < s.length % f.blockBytes,
      (absorb cap w s).buf.get? o = s[s.length / f.blockBytes * f.blockBytes + o]?) ∧
    (absorb cap w s).trace.filterMap blockOf = w.trace.filterMap blockOf ++ blocks f.blockBytes s

/-- R127: UPDATE of a well-formed command: rejected on an unbound engine; a LENGTH fault when `TOTAL + len` exceeds
`LMAX(ALG)`; otherwise it completes, with the payload absorbed, `TOTAL` increased by `len` and nothing emitted. That
`BP < B(ALG)` is the precondition of `Absorb` (R120), which every reachable state meets. -/
def Obligations.UpdateAbsorbsItsPayload : Prop :=
  ∀ (s : State) (len : Half) (payload : List Byte), payload.length = len.toNat →
    (s.bound = none → exec (.update len payload) s = .next (reject .unbound (encodeWord (.update len payload)) s)) ∧
    (∀ b, s.bound = some b →
      (s.total.toNat + len.toNat > b.alg.maxMessageBytes → exec (.update len payload) s = .fault .length) ∧
      (s.total.toNat + len.toNat ≤ b.alg.maxMessageBytes → s.bp.toNat < b.alg.blockBytes →
        ∃ t, exec (.update len payload) s = .next t ∧
          t.bound = some ⟨b.alg, (absorb Config.capability (s.work b) payload).h⟩ ∧
          t.buf = (absorb Config.capability (s.work b) payload).buf ∧
          t.bp.toNat = (s.bp.toNat + len.toNat) % b.alg.blockBytes ∧
          t.total.toNat = s.total.toNat + len.toNat ∧
          t.trace = (absorb Config.capability (s.work b) payload).trace ∧
          t.trace.length = s.trace.length + (s.bp.toNat + len.toNat) / b.alg.blockBytes ∧
          t.pc = s.pc + 1 ∧ t.out = s.out ∧ t.err = s.err ∧ t.ecause = s.ecause ∧ t.fault = s.fault ∧
          t.port = s.port))

/-- The frame of UPDATE (R50, R120, R127): on a bound engine it stores its bytes at the offsets `(BP + i) mod B` and
every byte of the buffer at another offset reads as before; `ALG`, the error record, `FAULT`, `OUT` and the stream are
unchanged. A rejected UPDATE leaves every byte. -/
def Obligations.UpdateStoresOnlyItsBytes : Prop :=
  ∀ (s t : State) (len : Half) (payload : List Byte), exec (.update len payload) s = .next t →
    (s.bound = none → ∀ o, t.buf.get? o = s.buf.get? o) ∧
    (∀ b, s.bound = some b →
      t.alg = s.alg ∧ t.err = s.err ∧ t.ecause = s.ecause ∧ t.fault = s.fault ∧ t.out = s.out ∧ t.port = s.port ∧
      ∀ o, (∀ i < payload.length, o ≠ (s.bp.toNat + i) % b.alg.blockBytes) → t.buf.get? o = s.buf.get? o)

/-- R133, streaming equivalence on the block: UPDATE commands whose payloads concatenate to `S` leave the same state as
one UPDATE of `S`, and the following DIGEST emits the same bytes. -/
def Obligations.SplittingAnUpdateIsInvisible : Prop :=
  ∀ (s : State) (b : Binding) (chunks : List (List Byte)), s.bound = some b → s.bp.toNat < b.alg.blockBytes →
    chunks.flatten.length ≤ 65535 → s.total.toNat + chunks.flatten.length ≤ b.alg.maxMessageBytes →
    ∃ t u, execAll (chunks.map updateCommand) s = .next t ∧ exec (updateCommand chunks.flatten) s = .next u ∧
      t.bound = u.bound ∧ t.buf = u.buf ∧ t.bp = u.bp ∧ t.total = u.total ∧ t.trace = u.trace ∧ t.out = u.out ∧
      ∃ v w, exec .digest t = .next v ∧ exec .digest u = .next w ∧ v.out = w.out

/-! ### DIGEST -/

/-- R124, the padding: its length, its range, the alignment it gives, `k` the least count of zero bytes that aligns, and
its dependence on `L` through `L mod B` and `8·L` (under the precondition of R123, that `8·L` fits the field). -/
def Obligations.PaddingProperties : Prop :=
  ∀ (messageLen : Nat) (blockLen : Nat), blockLen = 64 ∨ blockLen = 128 →
    (pad messageLen blockLen).length = 1 + padZeros messageLen blockLen + blockLen / 8 ∧
    blockLen / 8 + 1 ≤ (pad messageLen blockLen).length ∧ (pad messageLen blockLen).length ≤ blockLen + blockLen / 8 ∧
    (messageLen + (pad messageLen blockLen).length) % blockLen = 0 ∧
    (∀ k, (messageLen + (1 + k + blockLen / 8)) % blockLen = 0 → padZeros messageLen blockLen ≤ k) ∧
    padZeros messageLen blockLen = padZeros (messageLen % blockLen) blockLen ∧
    (8 * messageLen < 2 ^ (8 * (blockLen / 8)) →
      pad messageLen blockLen = 0x80 :: (List.replicate (padZeros (messageLen % blockLen) blockLen) 0 ++
        beBytes (blockLen / 8) (8 * messageLen)))

/-- R125, the extraction: `Extract(h, n)` is the first `n` bytes of the words' big-endian encodings one after another;
byte `i` of 32-bit words is taken from word `i >> 2` shifted by `(3 - (i & 3)) * 8`, of 64-bit words from word `i >> 3`
shifted by `(7 - (i & 7)) * 8`; a digest is no longer than the state, and ends with word 4, 6, 7, 5 or 7. -/
def Obligations.ExtractIsBigEndian : Prop :=
  (∀ (f : Family) (h : f.Chain) (n : Nat), n ≤ f.wordCount * (f.wordBits / 8) →
    extract f h n = (h.toList.flatMap fun w => beBytes (f.wordBits / 8) w.toNat).take n ∧
    (f.wordBits = 32 → ∀ i < n, (extract f h n)[i]? =
      some (BitVec.ofNat 8 ((h.toList.getD (i >>> 2) 0).toNat >>> ((3 - (i &&& 3)) * 8)))) ∧
    (f.wordBits = 64 → ∀ i < n, (extract f h n)[i]? =
      some (BitVec.ofNat 8 ((h.toList.getD (i >>> 3) 0).toNat >>> ((7 - (i &&& 7)) * 8))))) ∧
  (∀ a : Alg, a.digestBytes ≤ a.fam.wordCount * (a.fam.wordBits / 8)) ∧
  ([Alg.sha1, .sha2_224, .sha2_256, .sha2_384, .sha2_512].map fun a => (a.digestBytes - 1) / (a.fam.wordBits / 8)) =
    [4, 6, 7, 5, 7]

/-- R128: DIGEST on an unbound engine is rejected; on a bound one (with `BP < B(ALG)`, which every reachable state meets)
it completes: it emits exactly the `DL(ALG)` bytes of `Extract` after absorbing the padding of `TOTAL`, and leaves the
context reset for the same algorithm. -/
def Obligations.DigestEmitsAndResets : Prop :=
  ∀ s : State,
    (s.bound = none → exec .digest s = .next (reject .unbound 0x00000004 s)) ∧
    (∀ b, s.bound = some b → s.bp.toNat < b.alg.blockBytes →
      ∃ t digest, exec .digest s = .next t ∧ t.out = s.out ++ digest ∧ digest.length = b.alg.digestBytes ∧
        digest = extract b.alg.fam
          (absorb Config.capability (s.work b) (pad s.total.toNat b.alg.blockBytes)).h b.alg.digestBytes ∧
        t.bound = some ⟨b.alg, Config.capability.initState b.alg⟩ ∧ (∀ o < 128, t.buf.get? o = some 0) ∧ t.bp = 0 ∧
        t.total = 0 ∧
        t.trace = (absorb Config.capability (s.work b) (pad s.total.toNat b.alg.blockBytes)).trace ++
          [.initState b.alg (Config.capability.initState b.alg)] ∧
        t.pc = s.pc + 1 ∧ t.err = s.err ∧ t.ecause = s.ecause ∧ t.fault = s.fault ∧ t.port = s.port)

/-- R129: with `BP = TOTAL mod B(ALG)`, DIGEST makes `(BP + len(Pad)) / B` calls to `Compress`, which is one when
`BP ≤ B − F − 1` and two otherwise, and its absorb ends with `BP = 0`. -/
def Obligations.DigestMakesOneOrTwoCalls : Prop :=
  ∀ (s : State) (b : Binding), s.bound = some b → s.bp.toNat = s.total.toNat % b.alg.blockBytes →
    ∃ calls,
      (absorb Config.capability (s.work b) (pad s.total.toNat b.alg.blockBytes)).bp = 0 ∧
      (∃ t, exec .digest s = .next t ∧
        t.trace = s.trace ++ calls ++ [.initState b.alg (Config.capability.initState b.alg)]) ∧
      calls.length = (s.bp.toNat + (pad s.total.toNat b.alg.blockBytes).length) / b.alg.blockBytes ∧
      (∀ c ∈ calls, ∃ block, blockOf c = some block ∧ block.length = b.alg.blockBytes) ∧
      (s.bp.toNat + b.alg.lengthFieldBytes + 1 ≤ b.alg.blockBytes → calls.length = 1) ∧
      (b.alg.blockBytes < s.bp.toNat + b.alg.lengthFieldBytes + 1 → calls.length = 2)

/-- R130, reuse after finalize: after DIGEST the Engine Context equals the one after CREATE of the same algorithm from any
state whatever, the error record is unchanged, and UPDATEs and a DIGEST that follow emit the digest of the new input
only. -/
def Obligations.DigestLeavesAFreshContext : Prop :=
  ∀ (s t : State) (b : Binding), s.bound = some b → exec .digest s = .next t →
    (∀ u v : State, exec (Instr.create b.alg) u = .next v → SameContext t v) ∧
    t.err = s.err ∧ t.ecause = s.ecause ∧
    (∀ chunks : List (List Byte), (∀ c ∈ chunks, c.length ≤ 65535) → chunks.flatten.length ≤ b.alg.maxMessageBytes →
      ∃ w, execAll (chunks.map updateCommand ++ [.digest]) t = .next w ∧
        w.out = t.out ++ digestOf Config.capability b.alg chunks.flatten)

/-- What a command does to the Engine Context, and what UPDATE, DIGEST, RESET and CREATE emit, depends on the Engine
Context alone: nothing of an earlier computation is kept elsewhere (R20, R130). STATUS, which reports the error record,
changes no context. -/
def Obligations.ContextDecidesEveryCommand : Prop :=
  ∀ (i : Instr) (s t : State), SameContext s t →
    OutcomeRel
      (fun s' t' => SameContext s' t' ∧
        (i ≠ .status → ∃ bytes, s'.out = s.out ++ bytes ∧ t'.out = t.out ++ bytes))
      (exec i s) (exec i t)

/-- R134, the digest as a function: `CREATE a`, any UPDATEs whose payloads concatenate to a message of at most `LMAX(a)`
bytes, then DIGEST, from any state, emit the Merkle–Damgård digest of the message and nothing else. -/
def Obligations.DigestIsTheMerkleDamgardFunction : Prop :=
  ∀ (a : Alg) (chunks : List (List Byte)) (s : State), (∀ c ∈ chunks, c.length ≤ 65535) →
    chunks.flatten.length ≤ a.maxMessageBytes →
    ∃ t, execAll (Instr.create a :: (chunks.map updateCommand ++ [.digest])) s = .next t ∧
      t.out = s.out ++ digestOf Config.capability a chunks.flatten

/-- R122, the closed form on the block: after any reset of the context (CREATE, CREATE_BW, RESET or the end of DIGEST, R37),
UPDATEs whose payloads concatenate to `S` leave `H` the fold of `Compress` over `blocks(S)`, `BP = len(S) mod B` and in
`buf[0..BP)` the last `BP` bytes of `S`; `Compress` is called on exactly the blocks of `S`, and a DIGEST then emits what `S`
alone determines: neither the buffer at hardware reset nor a stale byte reaches either. -/
def Obligations.StateIsTheFoldOverTheMessage : Prop :=
  ∀ (a : Alg) (i : Instr) (s t : State) (chunks : List (List Byte)), exec i s = .next t →
    ((∃ c, i = Instr.create c) ∨ (∃ bw, i = .createBw bw) ∨ s.bound ≠ none ∧ (i = .reset ∨ i = .digest)) →
    t.alg = some a → (∀ c ∈ chunks, c.length ≤ 65535) → chunks.flatten.length ≤ a.maxMessageBytes →
    ∃ u calls, execAll (chunks.map updateCommand) t = .next u ∧
      u.bound = some ⟨a, compressAll Config.capability a.fam (Config.capability.initState a)
        (blocks a.blockBytes chunks.flatten)⟩ ∧
      u.bp.toNat = chunks.flatten.length % a.blockBytes ∧
      (∀ o < u.bp.toNat,
        u.buf.get? o = chunks.flatten[chunks.flatten.length / a.blockBytes * a.blockBytes + o]?) ∧
      u.trace = t.trace ++ calls ∧ calls.map blockOf = (blocks a.blockBytes chunks.flatten).map some ∧
      ∃ v, exec .digest u = .next v ∧ v.out = u.out ++ digestOf Config.capability a chunks.flatten

/-- The pseudo-instruction HASH (R82) emits the digest of its data, of any admitted length. -/
def Obligations.HashLineEmitsTheDigest : Prop :=
  ∀ (a : Alg) (data : List Byte) (s : State), data.length ≤ a.maxMessageBytes →
    assembleLine (.hash a data) = (Instr.create a :: (updateCommands data ++ [.digest])).map encodeTxn ∧
    ∃ t, execAll (Instr.create a :: (updateCommands data ++ [.digest])) s = .next t ∧
      t.out = s.out ++ digestOf Config.capability a data

/-! ### STATUS -/

/-- R180: STATUS completes in every state, emits the big-endian status word and changes nothing else. -/
def Obligations.StatusEmitsTheStatusWord : Prop :=
  (∀ s : State, exec .status s = .next { s with out := s.out ++ beBytes 4 (statusWord s).toNat, pc := s.pc + 1 }) ∧
  statusWord State.reset = 0x0000000F ∧
  (∀ cw pc, statusWord (reject .illegal cw { State.reset with pc := pc }) = 0x0001002F) ∧
  (∀ cw pc, statusWord (reject .unbound cw { State.reset with pc := pc }) = 0x0002002F)

/-- R181, the layout of the status word: every field at its bits, the reserved bits 0. -/
def Obligations.StatusWordLayout : Prop :=
  ∀ s : State,
    (statusWord s).extractLsb' 0 4 = (match s.alg with
      | none => 0xF
      | some a => a.code) ∧
    ((statusWord s).getLsbD 4 = true ↔ s.bound ≠ none ∧ s.total ≠ 0) ∧
    (statusWord s).getLsbD 5 = s.err ∧
    (statusWord s).extractLsb' 6 2 = 0 ∧
    (statusWord s).extractLsb' 8 7 = s.bp ∧
    (statusWord s).getLsbD 15 = false ∧
    (statusWord s).extractLsb' 16 3 = (match s.ecause with
      | none => 0
      | some .illegal => 1
      | some .unbound => 2) ∧
    (statusWord s).extractLsb' 19 13 = 0

/-- STATUS is idempotent (R56): repeated, it emits the same four bytes again. -/
def Obligations.StatusIsIdempotent : Prop :=
  ∀ s : State, ∃ t, execAll [.status, .status] s = .next t ∧
    t.out = s.out ++ beBytes 4 (statusWord s).toNat ++ beBytes 4 (statusWord s).toNat ∧ SameContext s t

/-! ### Rejections and faults -/

/-- R208, the effect of a rejection: the first cause is kept, `ERR` is set, the stream advances, the context, the response
stream and the record of calls stay. -/
def Obligations.RejectionEffect : Prop :=
  ∀ (cause : RejectCause) (cw : Word) (s : State),
    (s.err = false → (reject cause cw s).ecause = some cause) ∧
    (s.err = true → (reject cause cw s).ecause = s.ecause) ∧
    (reject cause cw s).err = true ∧ (reject cause cw s).pc = s.pc + 1 ∧ SameContext (reject cause cw s) s ∧
    (reject cause cw s).out = s.out ∧ (reject cause cw s).trace = s.trace ∧ (reject cause cw s).port = s.port

/-- R203: UPDATE, DIGEST and RESET on an unbound engine are rejected with cause UNBOUND (the effect of R208, with the model's
own record `FAULT`, R38), a payload discarded; CREATE, CREATE_BW and STATUS never are. That the model goes on (R209) and what
it records is its own choice (log entry 6). -/
def Obligations.UnboundCommandsAreRejected : Prop :=
  (∀ (s : State) (i : Instr), s.bound = none → i.WellFormed →
    (∃ len payload, i = .update len payload) ∨ i = .digest ∨ i = .reset →
      exec i s = .next
        { s with
          err := true
          ecause := if s.err then s.ecause else some .unbound
          fault := if s.fault.isSome then s.fault else some ⟨.unbound, encodeWord i, s.pc⟩
          pc := s.pc + 1 }) ∧
  (∀ (s : State) (i : Instr), (∃ a, i = Instr.create a) ∨ (∃ bw, i = .createBw bw) ∨ i = .status →
    ∃ t, exec i s = .next t ∧ t.err = s.err ∧ t.ecause = s.ecause ∧ t.fault = s.fault)

/-- The LENGTH fault (R131, R204) is raised by UPDATE alone, exactly when the engine is bound and the message would exceed
`LMAX(ALG)`; a command of another kind never raises it. `LMAX(a)` is the largest length whose bit length fits the padding's
length field, which is an eighth of a block. -/
def Obligations.LengthFaultExactlyWhenExceeded : Prop :=
  (∀ (i : Instr) (s : State), i.WellFormed →
    (exec i s = .fault .length ↔
      ∃ len payload b, i = .update len payload ∧ s.bound = some b ∧
        b.alg.maxMessageBytes < s.total.toNat + len.toNat)) ∧
  (∀ (a : Alg) (messageLen : Nat),
    a.lengthFieldBytes = a.blockBytes / 8 ∧
      (messageLen ≤ a.maxMessageBytes ↔ 8 * messageLen < 2 ^ (8 * a.lengthFieldBytes)))

/-- In a state that meets the invariant a well-formed command has one way to stop, the LENGTH fault (R200, R204); every
other completes. -/
def Obligations.OnlyLengthStopsACommand : Prop :=
  ∀ (i : Instr) (s : State), i.WellFormed → s.Inv → (∃ t, exec i s = .next t) ∨ exec i s = .fault .length

/-- The order of the checks (R207): MALFORMED before ILLEGAL, ILLEGAL before UNBOUND, UNBOUND before LENGTH, in every
unbound state; a cause recorded before is kept (R208). -/
def Obligations.ChecksStandInOrder : Prop :=
  (∀ (s : State) (cw : Word) (payload : List Byte) (q : List Txn), decode cw payload = .illegal cw → payload ≠ [] →
    s.port = .transactions (⟨cw, payload⟩ :: q) → step s = .refused .malformed) ∧
  (∀ (s : State) (cw : Word) (q : List Txn), s.bound = none → decode cw [] = .illegal cw →
    s.port = .transactions (⟨cw, []⟩ :: q) → ∃ t, step s = .next t ∧ t.err = true ∧
      (s.err = false → t.ecause = some .illegal) ∧ (s.err = true → t.ecause = s.ecause)) ∧
  (∀ (s : State) (len : Half) (payload : List Byte), s.bound = none → payload.length = len.toNat →
    ∃ t, exec (.update len payload) s = .next t ∧ t.err = true ∧
      (s.err = false → t.ecause = some .unbound) ∧ (s.err = true → t.ecause = s.ecause))

/-! ### Frames and rules of the whole machine -/

/-- The frame of CREATE, CREATE_BW, RESET and DIGEST on a bound engine: the error record, `FAULT` and the host's stream
are unchanged; the buffer is written whole; `OUT` changes by DIGEST alone, and `ALG` by CREATE and CREATE_BW alone. -/
def Obligations.ContextResettingFrame : Prop :=
  ∀ (i : Instr) (s t : State), exec i s = .next t →
    ((∃ a, i = Instr.create a) ∨ (∃ bw, i = .createBw bw) ∨ s.bound ≠ none ∧ (i = .reset ∨ i = .digest)) →
      t.err = s.err ∧ t.ecause = s.ecause ∧ t.fault = s.fault ∧ t.port = s.port ∧
      (i ≠ .digest → t.out = s.out) ∧ (i = .reset ∨ i = .digest → t.alg = s.alg) ∧
      (∃ calls, t.trace = s.trace ++ calls) ∧ (∀ o, 128 ≤ o → t.buf.get? o = none)

/-- The frame of STATUS: `OUT` and `pc` change, nothing else, and every byte of the buffer reads as before. -/
def Obligations.StatusFrame : Prop :=
  ∀ s t : State, exec .status s = .next t →
    SameContext t s ∧ t.err = s.err ∧ t.ecause = s.ecause ∧ t.fault = s.fault ∧ t.trace = s.trace ∧ t.port = s.port ∧
      ∀ o, t.buf.get? o = s.buf.get? o

/-- R79, the responses: DIGEST on a bound engine appends exactly `DL(ALG)` bytes, STATUS the four bytes of the status
word, every other command and every rejected command nothing. -/
def Obligations.ResponsesAreExact : Prop :=
  (∀ (i : Instr) (s t : State), exec i s = .next t →
    (i = .digest → ∀ b, s.bound = some b →
      ∃ d, t.out = s.out ++ d ∧ d = digestBytes Config.capability b s ∧ d.length = b.alg.digestBytes) ∧
    (i = .status → t.out = s.out ++ beBytes 4 (statusWord s).toNat) ∧
    (i ≠ .status → (i = .digest → s.bound = none) → t.out = s.out)) ∧
  (∀ (s t : State) (cw : Word) (rest : HostPort), fetch s.port = .illegal cw rest → step s = .next t → t.out = s.out)

/-- Every accepted or rejected command advances `pc` by one, and `pc` moves in no other way (R35): a step that takes no
transaction leaves the whole state. -/
def Obligations.PcCountsTransactions : Prop :=
  (∀ (i : Instr) (s t : State), exec i s = .next t → t.pc = s.pc + 1) ∧
  (∀ s t : State, step s = .next t → t.pc = s.pc + 1 ∨ t = s ∧ fetch s.port = .waiting)

/-- R24: `ALG` is written only by CREATE and CREATE_BW, and reads 0 to 4 or `0xF`. -/
def Obligations.AlgorithmIsBoundOnlyByCreate : Prop :=
  (∀ (i : Instr) (s t : State), exec i s = .next t →
    (∀ a, i = Instr.create a → t.alg = some a) ∧ (∀ bw, i = .createBw bw → t.alg = some (select bw.toNat)) ∧
    ((∀ a, i ≠ Instr.create a) → (∀ bw, i ≠ .createBw bw) → t.alg = s.alg)) ∧
  (∀ s t : State, step s = .next t → t.alg ≠ s.alg →
    ∃ i rest, fetch s.port = .command i rest ∧ ((∃ a, i = Instr.create a) ∨ ∃ bw, i = .createBw bw)) ∧
  (∀ s : State, s.algCode ≤ 4 ∨ s.algCode = 0xF)

/-- R27: `TOTAL` is increased by UPDATE alone, by its payload length and without wrapping; RESET, CREATE, CREATE_BW and
DIGEST set it to 0; STATUS and every rejected command leave it; its 128 bits hold every admitted length. -/
def Obligations.TotalCountsMessageBytes : Prop :=
  ∀ (i : Instr) (s t : State), exec i s = .next t →
    (∀ len payload, i = .update len payload → s.bound ≠ none → t.total.toNat = s.total.toNat + payload.length) ∧
    ((∃ a, i = Instr.create a) ∨ (∃ bw, i = .createBw bw) ∨ s.bound ≠ none ∧ (i = .reset ∨ i = .digest) →
      t.total = 0) ∧
    (i = .status ∨ s.bound = none ∧ ((∃ len payload, i = .update len payload) ∨ i = .reset ∨ i = .digest) →
      t.total = s.total) ∧
    (∀ (c : RejectCause) (cw : Word), (reject c cw s).total = s.total) ∧
    (∀ a : Alg, a.maxMessageBytes < 2 ^ 125)

/-- `H` is only ever mutated by the capability (R29, R164): a step appends calls to the record; if it appends none the
binding with `H` is unchanged, and if it appends any, the last one's result is `H`. -/
def Obligations.OnlyTheCapabilityMutatesTheChain : Prop :=
  ∀ s t : State, step s = .next t → ∃ calls, t.trace = s.trace ++ calls ∧
    (calls = [] → t.bound = s.bound) ∧
    (∀ c, calls.getLast? = some c → t.chain = some (resultOf c))

/-- No STATUS, no rejected command and no UPDATE with `len = 0` issues a capability call (R164): whether the command is
rejected UNBOUND by `exec` or its word ILLEGAL by the step. -/
def Obligations.QuietCommandsMakeNoCall : Prop :=
  (∀ (i : Instr) (s t : State), exec i s = .next t →
    i = .status ∨ (∃ payload, i = .update 0 payload) ∨
      s.bound = none ∧ ((∃ len payload, i = .update len payload) ∨ i = .reset ∨ i = .digest) → t.trace = s.trace) ∧
  (∀ (s t : State) (cw : Word) (rest : HostPort), fetch s.port = .illegal cw rest → step s = .next t →
    t.trace = s.trace)

/-- R32, the state machine: where every command leads from Unbound, Fresh and Accumulating. -/
def Obligations.StateMachineOfTheEngine : Prop :=
  (∀ (c : RejectCause) (cw : Word) (s : State), (reject c cw s).enginePhase = s.enginePhase) ∧
  ∀ (i : Instr) (s t : State), exec i s = .next t →
    ((∃ a, i = Instr.create a) ∨ (∃ bw, i = .createBw bw) → t.enginePhase = .fresh) ∧
    (i = .status → t.enginePhase = s.enginePhase) ∧
    (s.enginePhase = .unbound → (∃ len payload, i = .update len payload) ∨ i = .digest ∨ i = .reset →
      t.enginePhase = .unbound) ∧
    (s.enginePhase ≠ .unbound → i = .digest ∨ i = .reset → t.enginePhase = .fresh) ∧
    (∀ len payload, i = .update len payload →
      (s.enginePhase = .fresh → len ≠ 0 → t.enginePhase = .accumulating) ∧
      (s.enginePhase = .fresh → len = 0 → t.enginePhase = .fresh) ∧
      (s.enginePhase = .accumulating → t.enginePhase = .accumulating))

/-- R210: `ERR` and `ECAUSE` are cleared by no step: once a rejection is recorded, every step keeps the record, and
`FAULT` once set is never changed. -/
def Obligations.ErrorRecordIsSticky : Prop :=
  (∀ s t : State, step s = .next t →
    (s.err = true → t.err = true ∧ t.ecause = s.ecause) ∧ (∀ r, s.fault = some r → t.fault = some r)) ∧
  (∀ (s t : State) (i : Instr), exec i s = .next t →
    (∃ a, i = Instr.create a) ∨ (∃ bw, i = .createBw bw) ∨ s.bound ≠ none ∧ (i = .reset ∨ i = .digest) →
      t.err = s.err ∧ t.ecause = s.ecause)

/-- The stale bytes `buf[BP..128)` are never observable (R39, R122): two states that differ in them alone do the same on
every command, with the same responses and the same capability calls, and differ again in stale bytes alone. -/
def Obligations.StaleBytesAreNeverObserved : Prop :=
  ∀ (i : Instr) (s t : State), StaleEq s t → OutcomeRel StaleEq (exec i s) (exec i t)

/-- R62, instances share no state: a step of one instance is the step of that engine and leaves every other engine as it
was. -/
def Obligations.InstancesShareNothing : Prop :=
  ∀ (n : Nat) (k : Fin n) (sys : System n),
    (∀ s, step sys.engines[k] = .next s → ∃ sys', systemStep k sys = .next sys' ∧ sys'.engines[k] = s) ∧
    (∀ sys', systemStep k sys = .next sys' →
      step sys.engines[k] = .next sys'.engines[k] ∧ ∀ j : Fin n, j ≠ k → sys'.engines[j] = sys.engines[j])

/-! ### Invariants and reset -/

/-- R230, the launch state: every element that has a hardware-reset value at it, unbound with `H` holding no value, no
capability call made, nothing recorded, nothing emitted, `pc = 0`; and it takes the first transaction of the host's
stream. -/
def Obligations.LaunchState : Prop :=
  State.reset.algCode = 0xF ∧ State.reset.bound = none ∧ State.reset.bp = 0 ∧ State.reset.total = 0 ∧
  State.reset.err = false ∧ ecauseCode State.reset.ecause = 0 ∧ State.reset.fault = none ∧ State.reset.out = [] ∧
  State.reset.trace = [] ∧ State.reset.pc = 0 ∧ State.reset.phase = false ∧
  ∀ (i : Instr) (q : List Txn), i.WellFormed →
    step { State.reset with port := .transactions (encodeTxn i :: q) } =
      exec i { State.reset with port := .transactions q }

/-- The engine invariant holds at reset (R26, R30, R33). -/
def Obligations.ResetMeetsTheInvariant : Prop := State.reset.Inv

/-- Every step keeps the engine invariant (R26, R30, R33): the buffer stays canonical, `BP < B(ALG)` and
`BP = TOTAL mod B(ALG)` while bound, the message within its limit, and the error record consistent. -/
def Obligations.StepKeepsTheInvariant : Prop :=
  ∀ s t : State, s.Inv → step s = .next t → t.Inv

/-- The record of calls is linked at reset (R164). -/
def Obligations.ResetCallsAreLinked : Prop := TraceLinked Config.capability State.reset.trace State.reset.chain

/-- Every step keeps the record of calls linked (R29, R161, R162, R164): calls are chained on the previous state, each on
exactly one block, and `H` is the last call's result. -/
def Obligations.StepKeepsCallsLinked : Prop :=
  ∀ s t : State, TraceLinked Config.capability s.trace s.chain → step s = .next t →
    TraceLinked Config.capability t.trace t.chain
end

