-- ==== Sys2Proof/Laws/Buffer.lean ====
section
/-! SUPPORT. The laws of the pending buffer: a read after a write, and the canonical form that every operation keeps. -/

namespace Sys2Proof.Machine

@[simp] theorem Memory.get?_nil (o : Nat) : Memory.get? [] o = none := rfl

theorem Memory.get?_cons (c : Host.Cell) (m : Memory) (o : Nat) :
    Memory.get? (c :: m) o = if c.1 = o then some c.2 else Memory.get? m o := rfl

/-- A read after a write to the same offset gives the byte written. -/
@[simp] theorem Memory.get?_set_same (m : Memory) (o : Nat) (b : Byte) : (m.set o b).get? o = some b := by
  induction m with
  | nil => simp [Memory.set, Memory.get?_cons]
  | cons c m ih =>
    unfold Memory.set
    split
    · simp [Memory.get?_cons]
    · split
      · simp [Memory.get?_cons]
      · rename_i h1 h2
        rw [Memory.get?_cons, if_neg (Ne.symm h2), ih]

/-- A write leaves every other offset alone. -/
theorem Memory.get?_set_other (m : Memory) {o p : Nat} (b : Byte) (h : o ≠ p) :
    (m.set o b).get? p = m.get? p := by
  induction m with
  | nil => simp [Memory.set, Memory.get?_cons, h]
  | cons c m ih =>
    unfold Memory.set
    split
    · rw [Memory.get?_cons, if_neg h]
    · split
      · rename_i h1 h2
        rw [Memory.get?_cons, if_neg h, Memory.get?_cons, if_neg (h2 ▸ h)]
      · rw [Memory.get?_cons, ih, ← Memory.get?_cons]

theorem Memory.get?_set (m : Memory) (o p : Nat) (b : Byte) :
    (m.set o b).get? p = if o = p then some b else m.get? p := by
  split
  · next h => rw [← h, Memory.get?_set_same]
  · next h => rw [Memory.get?_set_other m b h]

/-- What `MemWrite` stores: the sequence at the offsets from `o` on, every other offset alone (R50). -/
theorem get?_memWrite (s : List Byte) : ∀ (m : Memory) (o p : Nat),
    (memWrite m o s).get? p = if o ≤ p ∧ p < o + s.length then s[p - o]? else m.get? p := by
  induction s with
  | nil => intro m o p; rw [if_neg (by simp)]; rfl
  | cons b s ih =>
    intro m o p
    rw [memWrite, ih, Memory.get?_set]
    rcases Nat.lt_trichotomy o p with h | h | h
    · have hp : p - o = (p - (o + 1)) + 1 := by omega
      rw [hp, List.getElem?_cons_succ, if_neg (by omega : ¬ o = p)]
      simp only [List.length_cons]
      split <;> split <;> first | rfl | omega
    · subst h
      rw [if_neg (by omega), if_pos rfl, if_pos (by simp)]
      simp
    · rw [if_neg (by omega), if_neg (by omega), if_neg (by omega)]

/-- Outside the stored offsets `MemWrite` changes nothing. -/
theorem get?_memWrite_outside (m : Memory) (o p : Nat) (s : List Byte) (h : p < o ∨ o + s.length ≤ p) :
    (memWrite m o s).get? p = m.get? p := by
  rw [get?_memWrite, if_neg (by omega)]

/-! ### The canonical form -/

/-- Every offset of a list is above a bound. -/
def Memory.above (n : Nat) (m : Memory) : Prop := ∀ c ∈ m, n < c.1

theorem Memory.rising_cons (c : Host.Cell) (m : Memory) :
    Memory.rising (c :: m) = true ↔ Memory.above c.1 m ∧ Memory.rising m = true := by
  induction m generalizing c with
  | nil => simp [Memory.rising, Memory.above]
  | cons d m ih =>
    simp only [Memory.rising, Bool.and_eq_true, decide_eq_true_eq, Memory.above, List.mem_cons, forall_eq_or_imp]
    constructor
    · intro h
      refine ⟨⟨h.1, fun e he => ?_⟩, h.2⟩
      exact Nat.lt_trans h.1 (((ih d).1 h.2).1 e he)
    · intro h
      exact ⟨h.1.1, h.2⟩

theorem Memory.above_set {n : Nat} {m : Memory} {o : Nat} {b : Byte} (hm : Memory.above n m) (ho : n < o) :
    Memory.above n (m.set o b) := by
  induction m with
  | nil => intro c hc; simp [Memory.set] at hc; subst hc; exact ho
  | cons d m ih =>
    intro c hc
    have hd : n < d.1 := hm d (by simp)
    have hm' : Memory.above n m := fun e he => hm e (by simp [he])
    unfold Memory.set at hc
    split at hc
    · rcases List.mem_cons.1 hc with h | h
      · subst h; exact ho
      · exact hm c h
    · split at hc
      · rcases List.mem_cons.1 hc with h | h
        · subst h; exact ho
        · exact hm' c h
      · rcases List.mem_cons.1 hc with h | h
        · subst h; exact hd
        · exact ih hm' c h

theorem Memory.rising_set {m : Memory} (o : Nat) (b : Byte) (hm : Memory.rising m = true) :
    Memory.rising (m.set o b) = true := by
  induction m with
  | nil => rfl
  | cons d m ih =>
    have hd := (Memory.rising_cons d m).1 hm
    unfold Memory.set
    split
    · next h =>
      refine (Memory.rising_cons _ _).2 ⟨fun e he => ?_, hm⟩
      rcases List.mem_cons.1 he with h' | h'
      · subst h'; exact h
      · exact Nat.lt_trans h (hd.1 e h')
    · split
      · next h =>
        refine (Memory.rising_cons _ _).2 ⟨fun e he => ?_, hd.2⟩
        exact h ▸ hd.1 e he
      · next h1 h2 =>
        exact (Memory.rising_cons _ _).2 ⟨Memory.above_set hd.1 (by omega), ih hd.2⟩

theorem Memory.mem_set {m : Memory} {o : Nat} {b : Byte} {c : Host.Cell} (h : c ∈ m.set o b) : c = (o, b) ∨ c ∈ m := by
  induction m with
  | nil => left; simpa [Memory.set] using h
  | cons d m ih =>
    unfold Memory.set at h
    split at h
    · simpa using h
    · split at h
      · rcases List.mem_cons.1 h with h | h
        · exact .inl h
        · exact .inr (by simp [h])
      · rcases List.mem_cons.1 h with h | h
        · exact .inr (by simp [h])
        · exact (ih h).imp id fun h => by simp [h]

theorem Memory.wf_iff (m : Memory) : m.wf = true ↔ Memory.rising m = true ∧ ∀ c ∈ m, c.1 < 128 := by
  simp [Memory.wf]

@[simp] theorem Memory.wf_nil : Memory.wf [] = true := rfl

/-- Writing one byte below `BUF_CAP` keeps the canonical form. -/
theorem Memory.wf_set {m : Memory} {o : Nat} (b : Byte) (hm : m.wf = true) (ho : o < 128) : (m.set o b).wf = true := by
  rw [Memory.wf_iff] at hm ⊢
  refine ⟨Memory.rising_set o b hm.1, fun c hc => ?_⟩
  rcases Memory.mem_set hc with h | h
  · subst h; exact ho
  · exact hm.2 c h

/-- `MemWrite` within `BUF_CAP` keeps the canonical form (R50). -/
theorem wf_memWrite (s : List Byte) : ∀ {m : Memory} {o : Nat}, m.wf = true → o + s.length ≤ 128 →
    (memWrite m o s).wf = true := by
  induction s with
  | nil => intro m o hm _; exact hm
  | cons b s ih =>
    intro m o hm ho
    rw [List.length_cons] at ho
    exact ih (Memory.wf_set b hm (by omega)) (by omega)

@[simp] theorem zeroedBuffer_wf : zeroedBuffer.wf = true := by decide

/-- A buffer in canonical form holds nothing from `BUF_CAP` on. -/
theorem get?_of_wf {m : Memory} (hm : m.wf = true) {o : Nat} (ho : 128 ≤ o) : m.get? o = none := by
  have hm' := ((Memory.wf_iff _).1 hm).2
  clear hm
  induction m with
  | nil => rfl
  | cons c m ih =>
    have := hm' c (by simp)
    rw [Memory.get?_cons, if_neg (by omega)]
    exact ih fun e he => hm' e (by simp [he])

theorem get?_zeros (o : Nat) : ∀ n a, Memory.get? ((List.range' a n).map fun o => (o, (0 : Byte))) o =
    if a ≤ o ∧ o < a + n then some 0 else none
  | 0, a => by rw [if_neg (by omega)]; rfl
  | n + 1, a => by
    rw [List.range'_succ, List.map_cons, Memory.get?_cons, get?_zeros o n]
    simp only
    split <;> split <;> first | rfl | (split <;> first | rfl | omega) | omega

/-- After the zeroing every one of the 128 bytes is zero, and there is no other (R25, R126). -/
theorem get?_zeroedBuffer (o : Nat) : zeroedBuffer.get? o = if o < 128 then some 0 else none := by
  rw [zeroedBuffer, List.range_eq_range', get?_zeros]
  simp

/-- Two buffers in canonical form that hold the same are equal data. -/
theorem Memory.eq_of_get? : ∀ {m n : Memory}, m.rising = true → n.rising = true → (∀ o, m.get? o = n.get? o) → m = n
  | [], [], _, _, _ => rfl
  | [], d :: n, _, _, h => by have := h d.1; simp [Memory.get?_cons] at this
  | c :: m, [], _, _, h => by have := h c.1; simp [Memory.get?_cons] at this
  | c :: m, d :: n, hm, hn, h => by
    have absent : ∀ {k : Nat} {l : Memory}, Memory.above k l → ∀ {p}, p ≤ k → l.get? p = none := by
      intro k l
      induction l with
      | nil => intros; rfl
      | cons e l ih =>
        intro ha p hp
        have := ha e (by simp)
        rw [Memory.get?_cons, if_neg (by omega)]
        exact ih (fun x hx => ha x (by simp [hx])) hp
    have hm' := (Memory.rising_cons c m).1 hm
    have hn' := (Memory.rising_cons d n).1 hn
    have hcd : c = d := by
      rcases Nat.lt_trichotomy c.1 d.1 with h1 | h1 | h1
      · have := h c.1
        rw [Memory.get?_cons, if_pos rfl, Memory.get?_cons, if_neg (by omega), absent hn'.1 (by omega)] at this
        cases this
      · have := h c.1
        rw [Memory.get?_cons, if_pos rfl, Memory.get?_cons, if_pos h1.symm] at this
        exact Prod.ext h1 (Option.some.inj this)
      · have := h d.1
        rw [Memory.get?_cons, if_neg (by omega), absent hm'.1 (by omega), Memory.get?_cons, if_pos rfl] at this
        cases this
    subst hcd
    congr 1
    refine Memory.eq_of_get? hm'.2 hn'.2 fun o => ?_
    have := h o
    rw [Memory.get?_cons, Memory.get?_cons] at this
    by_cases ho : c.1 = o
    · rw [absent hm'.1 (by omega), absent hn'.1 (by omega)]
    · rwa [if_neg ho, if_neg ho] at this

/-- `MemWrite(0, 128, replicate(128, 0x00))` on a buffer in canonical form is the zeroed buffer (R101, R126). -/
theorem memWrite_zeros {m : Memory} (hm : m.wf = true) : memWrite m 0 (List.replicate 128 0) = zeroedBuffer := by
  have hw : (memWrite m 0 (List.replicate 128 0)).wf = true := wf_memWrite _ hm (by simp)
  refine Memory.eq_of_get? ((Memory.wf_iff _).1 hw).1 ((Memory.wf_iff _).1 zeroedBuffer_wf).1 fun o => ?_
  rw [get?_memWrite, get?_zeroedBuffer]
  by_cases ho : o < 128
  · rw [if_pos (by simpa using ho), if_pos ho, Nat.sub_zero, List.getElem?_replicate, if_pos ho]
  · rw [if_neg (by simpa using ho), if_neg ho]
    exact get?_of_wf hm (by omega)

@[simp] theorem memRead_length (m : Memory) (o n : Nat) : (memRead m o n).length = n := by simp [memRead]

theorem byteAt_of_get? {m n : Memory} {o : Nat} (h : m.get? o = n.get? o) : m.byteAt o = n.byteAt o := by
  simp [Memory.byteAt, h]

theorem byteAt_eq {m : Memory} {o : Nat} {b : Byte} (h : m.get? o = some b) : m.byteAt o = b := by
  simp [Memory.byteAt, h]

end Sys2Proof.Machine
end

