-- ==== Sys2Proof/Laws/Absorb.lean ====
section
/-! SUPPORT. What `Absorb`, `Pad` and `Extract` do (spec R120 to R125): the loop absorbs byte by byte, and the closed forms
of its count, its buffer and its calls. -/

namespace Sys2Proof.Machine

variable {f : Family}

/-- The handier form of the absorb loop: one byte, then a compression if the buffer is full. -/
def absorbByte (cap : Capability) (w : Work f) (b : Byte) : Work f := compressIfFull cap (writeRun w [b])

theorem Family.blockBytes_pos (f : Family) : 0 < f.blockBytes := by cases f <;> decide

theorem Family.blockBytes_le (f : Family) : f.blockBytes ≤ 128 := by cases f <;> decide

@[simp] theorem writeRun_bp (w : Work f) (s : List Byte) : (writeRun w s).bp = w.bp + s.length := rfl
@[simp] theorem writeRun_h (w : Work f) (s : List Byte) : (writeRun w s).h = w.h := rfl
@[simp] theorem writeRun_trace (w : Work f) (s : List Byte) : (writeRun w s).trace = w.trace := rfl
@[simp] theorem writeRun_buf (w : Work f) (s : List Byte) : (writeRun w s).buf = memWrite w.buf w.bp s := rfl

theorem writeRun_cons (w : Work f) (b : Byte) (s : List Byte) :
    writeRun w (b :: s) = writeRun (writeRun w [b]) s := by
  simp only [writeRun, memWrite, List.length_cons, List.length_nil]
  congr 1
  omega

@[simp] theorem compressFull_bp (cap : Capability) (w : Work f) : (compressFull cap w).bp = 0 := rfl
@[simp] theorem compressFull_buf (cap : Capability) (w : Work f) : (compressFull cap w).buf = w.buf := rfl
@[simp] theorem compressFull_h (cap : Capability) (w : Work f) :
    (compressFull cap w).h = cap.compress f w.h (memRead w.buf 0 f.blockBytes) := rfl
@[simp] theorem compressFull_trace (cap : Capability) (w : Work f) :
    (compressFull cap w).trace = w.trace ++ [.compress f w.h (memRead w.buf 0 f.blockBytes)
      (cap.compress f w.h (memRead w.buf 0 f.blockBytes))] := rfl

/-- One byte either stays pending or fills the block, which is then compressed (R120). -/
theorem absorbByte_cases (cap : Capability) (w : Work f) (b : Byte) (hw : w.bp < f.blockBytes) :
    (w.bp + 1 < f.blockBytes ∧ absorbByte cap w b = writeRun w [b]) ∨
      (w.bp + 1 = f.blockBytes ∧ absorbByte cap w b = compressFull cap (writeRun w [b])) := by
  unfold absorbByte compressIfFull
  simp only [writeRun_bp, List.length_cons, List.length_nil, Nat.zero_add]
  split
  · next h => exact .inr ⟨h, rfl⟩
  · next h => exact .inl ⟨by omega, rfl⟩

theorem absorbByte_bp_lt (cap : Capability) (w : Work f) (b : Byte) (hw : w.bp < f.blockBytes) :
    (absorbByte cap w b).bp < f.blockBytes := by
  rcases absorbByte_cases cap w b hw with ⟨h, e⟩ | ⟨h, e⟩
  · rw [e]; exact h
  · rw [e]; exact Family.blockBytes_pos f

theorem foldl_absorbByte_bp_lt (cap : Capability) (s : List Byte) :
    ∀ (w : Work f), w.bp < f.blockBytes → (s.foldl (absorbByte cap) w).bp < f.blockBytes := by
  induction s with
  | nil => exact fun w hw => hw
  | cons b s ih => exact fun w hw => ih _ (absorbByte_bp_lt cap w b hw)

/-- A run that fits the buffer is its bytes one by one. -/
theorem run_eq_foldl (cap : Capability) : ∀ (s : List Byte) (w : Work f), s ≠ [] → w.bp + s.length ≤ f.blockBytes →
    compressIfFull cap (writeRun w s) = s.foldl (absorbByte cap) w
  | [], _, h, _ => absurd rfl h
  | [_], _, _, _ => rfl
  | b :: c :: s, w, _, hl => by
    have h1 : absorbByte cap w b = writeRun w [b] := by
      rcases absorbByte_cases cap w b (by simp at hl; omega) with ⟨_, e⟩ | ⟨h, _⟩
      · exact e
      · simp at hl; omega
    rw [writeRun_cons, List.foldl_cons, h1, run_eq_foldl cap (c :: s) _ (by simp) (by simp at hl ⊢; omega)]

/-- The loop of R120 absorbs its input byte by byte. -/
theorem absorbLoop_eq_foldl (cap : Capability) : ∀ (fuel : Nat) (w : Work f) (s : List Byte), s.length ≤ fuel →
    w.bp < f.blockBytes → absorbLoop cap fuel w s = s.foldl (absorbByte cap) w
  | 0, w, s, hl, _ => by
    obtain rfl : s = [] := List.length_eq_zero_iff.1 (Nat.le_zero.1 hl)
    rfl
  | _ + 1, _, [], _, _ => rfl
  | fuel + 1, w, b :: s, hl, hw => by
    rw [absorbLoop]
    generalize ha : min (s.length + 1) (f.blockBytes - w.bp) = a
    have hl' : (b :: s).length = s.length + 1 := rfl
    have hne : (b :: s).take a ≠ [] := by
      intro h
      have := congrArg List.length h
      rw [List.length_take, hl', List.length_nil] at this
      omega
    have hfit : w.bp + ((b :: s).take a).length ≤ f.blockBytes := by
      rw [List.length_take, hl']; omega
    rw [run_eq_foldl cap _ w hne hfit]
    rw [absorbLoop_eq_foldl cap fuel _ _ (by rw [List.length_drop, hl']; omega) (foldl_absorbByte_bp_lt cap _ w hw)]
    rw [← List.foldl_append, List.take_append_drop]

/-- `Absorb(s)` absorbs its input byte by byte, while `BP < B` (R120). -/
theorem absorb_eq_foldl (cap : Capability) (w : Work f) (s : List Byte) (hw : w.bp < f.blockBytes) :
    absorb cap w s = s.foldl (absorbByte cap) w :=
  absorbLoop_eq_foldl cap s.length w s (Nat.le_refl _) hw

@[simp] theorem absorb_nil (cap : Capability) (w : Work f) : absorb cap w [] = w := rfl

theorem absorb_bp_lt (cap : Capability) (w : Work f) (s : List Byte) (hw : w.bp < f.blockBytes) :
    (absorb cap w s).bp < f.blockBytes := by
  rw [absorb_eq_foldl cap w s hw]; exact foldl_absorbByte_bp_lt cap s w hw

/-- A property that every absorbed byte keeps is kept by `Absorb`. -/
theorem absorb_induction (cap : Capability) {P : Work f → Prop}
    (hP : ∀ w b, w.bp < f.blockBytes → P w → P (absorbByte cap w b)) (s : List Byte) :
    ∀ w : Work f, w.bp < f.blockBytes → P w → P (absorb cap w s) := by
  intro w hw h0
  rw [absorb_eq_foldl cap w s hw]
  induction s generalizing w with
  | nil => exact h0
  | cons b s ih => exact ih _ (absorbByte_bp_lt cap w b hw) (hP w b hw h0)

/-- `MemWrite` of one byte. -/
theorem writeRun_one_get? (w : Work f) (b : Byte) (o : Nat) :
    (writeRun w [b]).buf.get? o = if w.bp = o then some b else w.buf.get? o := by
  rw [writeRun_buf, memWrite, memWrite, Memory.get?_set]

/-- Whether it fills the block or not, one byte is stored at offset `BP`. -/
theorem absorbByte_buf (cap : Capability) (w : Work f) (b : Byte) :
    (absorbByte cap w b).buf = w.buf.set w.bp b := by
  unfold absorbByte compressIfFull
  split <;> rfl

/-- `Absorb` keeps the canonical form of the buffer. -/
theorem absorb_wf (cap : Capability) (w : Work f) (s : List Byte) (hw : w.bp < f.blockBytes) (hb : w.buf.wf = true) :
    (absorb cap w s).buf.wf = true :=
  absorb_induction cap (P := fun w => w.buf.wf = true)
    (fun w b hbp h => by
      rw [absorbByte_buf]
      exact Memory.wf_set b h (Nat.lt_of_lt_of_le hbp (Family.blockBytes_le f))) s w hw hb

/-- `Absorb` unwrites no byte. -/
theorem absorb_written (cap : Capability) (w : Work f) (s : List Byte) (hw : w.bp < f.blockBytes) (o : Nat)
    (ho : (w.buf.get? o).isSome = true) : ((absorb cap w s).buf.get? o).isSome = true :=
  absorb_induction cap (P := fun w => (w.buf.get? o).isSome = true)
    (fun w b _ h => by
      rw [absorbByte_buf, Memory.get?_set]
      split
      · rfl
      · exact h) s w hw ho

/-- One more byte moves `BP` on, modulo `B`. -/
theorem absorbByte_bp (cap : Capability) (w : Work f) (b : Byte) (hw : w.bp < f.blockBytes) :
    (absorbByte cap w b).bp = (w.bp + 1) % f.blockBytes := by
  rcases absorbByte_cases cap w b hw with ⟨h, e⟩ | ⟨h, e⟩
  · rw [e, writeRun_bp, Nat.mod_eq_of_lt h]; rfl
  · rw [e, compressFull_bp, h, Nat.mod_self]

/-! ### Values that survive their registers -/

/-- `BP` between commands fits its 7 bits (R26). -/
theorem bp_roundtrip {n : Nat} (h : n < f.blockBytes) : (BitVec.ofNat 7 n).toNat = n := by
  have := Family.blockBytes_le f
  rw [BitVec.toNat_ofNat, Nat.mod_eq_of_lt (by omega)]

theorem alg_maxMessageBytes_lt (a : Alg) : a.maxMessageBytes < 2 ^ 125 := by cases a <;> decide

/-- `TOTAL` holds every admitted length (R27). -/
theorem total_roundtrip {a : Alg} {n : Nat} (h : n ≤ a.maxMessageBytes) : (BitVec.ofNat 128 n).toNat = n := by
  rw [BitVec.toNat_ofNat, Nat.mod_eq_of_lt]
  exact Nat.lt_trans (Nat.lt_of_le_of_lt h (alg_maxMessageBytes_lt a)) (by decide)

/-! ### Extraction -/

@[simp] theorem extract_length (f : Family) (h : f.Chain) (n : Nat) : (extract f h n).length = n := by
  simp [extract]

theorem extract_get? (f : Family) (h : f.Chain) {n i : Nat} (hi : i < n) :
    (extract f h n)[i]? = some (stateByte f h i) := by
  simp [extract, hi]

end Sys2Proof.Machine
end

