-- ==== Sys2Proof/Laws/Bytes.lean ====
section
/-! SUPPORT. The laws of the big-endian encoding (spec R10, R53). -/

namespace Sys2Proof

@[simp] theorem beBytes_length (n v : Nat) : (beBytes n v).length = n := by simp [beBytes]

@[simp] theorem wordBytes_length (w : Word) : (wordBytes w).length = 4 := by simp [wordBytes]

theorem wordBytes_eq (w : Word) :
    wordBytes w = [w.extractLsb' 24 8, w.extractLsb' 16 8, w.extractLsb' 8 8, w.extractLsb' 0 8] := by
  simp [wordBytes, beBytes, List.range, List.range.loop, BitVec.extractLsb']

/-- The four bytes of a word give it back (R53). -/
theorem wordOfBytes_extract (w : Word) :
    wordOfBytes (w.extractLsb' 24 8) (w.extractLsb' 16 8) (w.extractLsb' 8 8) (w.extractLsb' 0 8) = w := by
  unfold wordOfBytes
  ext i hi
  simp only [BitVec.getElem_append, BitVec.getElem_extractLsb']
  split
  · simp [BitVec.getLsbD_eq_getElem hi]
  · split
    · rw [show 8 + (i - 8) = i by omega, BitVec.getLsbD_eq_getElem hi]
    · split
      · rw [show 16 + (i - 8 - 8) = i by omega, BitVec.getLsbD_eq_getElem hi]
      · rw [show 24 + (i - 8 - 8 - 8) = i by omega, BitVec.getLsbD_eq_getElem hi]

/-- The bytes of four bytes' word are those bytes (R53). -/
theorem wordBytes_wordOfBytes (b0 b1 b2 b3 : Byte) : wordBytes (wordOfBytes b0 b1 b2 b3) = [b0, b1, b2, b3] := by
  rw [wordBytes_eq]
  have h : ∀ k (b : Byte), (∀ j < 8, (wordOfBytes b0 b1 b2 b3).getLsbD (k + j) = b.getLsbD j) →
      (wordOfBytes b0 b1 b2 b3).extractLsb' k 8 = b := by
    intro k b hb
    ext i hi
    rw [BitVec.getElem_extractLsb', hb i hi, BitVec.getLsbD_eq_getElem hi]
  have e : ∀ i, (wordOfBytes b0 b1 b2 b3).getLsbD i =
      if i < 8 then b3.getLsbD i else if i < 16 then b2.getLsbD (i - 8) else
        if i < 24 then b1.getLsbD (i - 16) else b0.getLsbD (i - 24) := by
    intro i
    unfold wordOfBytes
    simp only [BitVec.getLsbD_append]
    by_cases h1 : i < 8
    · rw [if_pos h1, if_pos h1]
    · rw [if_neg h1, if_neg h1]
      by_cases h2 : i < 16
      · rw [if_pos h2, if_pos (by omega)]
      · rw [if_neg h2, if_neg (by omega)]
        by_cases h3 : i < 24
        · rw [if_pos h3, if_pos (by omega), Nat.sub_sub]
        · rw [if_neg h3, if_neg (by omega), Nat.sub_sub, Nat.sub_sub]
  rw [h 24 b0, h 16 b1, h 8 b2, h 0 b3] <;> intro j hj <;> rw [e]
  · rw [if_pos (by omega)]; congr 1; omega
  · rw [if_neg (by omega), if_pos (by omega)]; congr 1; omega
  · rw [if_neg (by omega), if_neg (by omega), if_pos (by omega)]; congr 1; omega
  · rw [if_neg (by omega), if_neg (by omega), if_neg (by omega)]; congr 1; omega

end Sys2Proof
end

