-- ==== Sys2Proof/Laws/Decode.lean ====
section
/-! SUPPORT. The fields of a command word and the word with given fields (spec R71), and how the byte-stream decoder reads
the front of a stream (R77, R78). -/

namespace Sys2Proof

@[simp] theorem opField_commandWord (imm : Half) (rsv : BitVec 8) (sub op : BitVec 4) :
    opField (commandWord imm rsv sub op) = op := by
  unfold opField commandWord
  ext i hi
  rw [BitVec.getElem_extractLsb', BitVec.getLsbD_append, if_pos (by omega), Nat.zero_add, BitVec.getLsbD_eq_getElem hi]

@[simp] theorem subField_commandWord (imm : Half) (rsv : BitVec 8) (sub op : BitVec 4) :
    subField (commandWord imm rsv sub op) = sub := by
  unfold subField commandWord
  ext i hi
  rw [BitVec.getElem_extractLsb', BitVec.getLsbD_append, if_neg (by omega), BitVec.getLsbD_append, if_pos (by omega),
    Nat.add_sub_cancel_left, BitVec.getLsbD_eq_getElem hi]

@[simp] theorem rsvField_commandWord (imm : Half) (rsv : BitVec 8) (sub op : BitVec 4) :
    rsvField (commandWord imm rsv sub op) = rsv := by
  unfold rsvField commandWord
  ext i hi
  rw [BitVec.getElem_extractLsb', BitVec.getLsbD_append, if_neg (by omega), BitVec.getLsbD_append, if_neg (by omega),
    BitVec.getLsbD_append, if_pos (by omega), show 8 + i - 4 - 4 = i by omega, BitVec.getLsbD_eq_getElem hi]

@[simp] theorem immField_commandWord (imm : Half) (rsv : BitVec 8) (sub op : BitVec 4) :
    immField (commandWord imm rsv sub op) = imm := by
  unfold immField commandWord
  ext i hi
  rw [BitVec.getElem_extractLsb', BitVec.getLsbD_append, if_neg (by omega), BitVec.getLsbD_append, if_neg (by omega),
    BitVec.getLsbD_append, if_neg (by omega), show 16 + i - 4 - 4 - 8 = i by omega, BitVec.getLsbD_eq_getElem hi]

/-- A word is the word of its fields (R71). -/
theorem commandWord_fields (cw : Word) : commandWord (immField cw) (rsvField cw) (subField cw) (opField cw) = cw := by
  unfold commandWord immField rsvField subField opField
  ext i hi
  simp only [BitVec.getElem_append, BitVec.getElem_extractLsb']
  split
  · rw [Nat.zero_add, BitVec.getLsbD_eq_getElem hi]
  · split
    · rw [show 4 + (i - 4) = i by omega, BitVec.getLsbD_eq_getElem hi]
    · split
      · rw [show 8 + (i - 4 - 4) = i by omega, BitVec.getLsbD_eq_getElem hi]
      · rw [show 16 + (i - 4 - 4 - 8) = i by omega, BitVec.getLsbD_eq_getElem hi]

/-- Two words with the same fields are the same word. -/
theorem word_eq_of_fields {v w : Word} (h1 : opField v = opField w) (h2 : subField v = subField w)
    (h3 : rsvField v = rsvField w) (h4 : immField v = immField w) : v = w := by
  rw [← commandWord_fields v, ← commandWord_fields w, h1, h2, h3, h4]

/-- Taking the front transaction of the bytes of a well-formed one gives it back (R78). -/
theorem takeTxn_txnBytes (t : Txn) (rest : List Byte) (ht : t.WellFormed) :
    takeTxn (txnBytes t ++ rest) = .txn t rest := by
  obtain ⟨cw, payload⟩ := t
  change payload.length = paylen cw at ht
  simp only [txnBytes, wordBytes_eq, List.cons_append, List.nil_append, takeTxn, wordOfBytes_extract]
  rw [if_pos (by rw [List.length_append]; omega), ← ht, List.take_left, List.drop_left]

/-- A transaction taken from a byte stream is well-formed, and the stream is its bytes and the rest (R78). -/
theorem takeTxn_eq_txn {bytes rest : List Byte} {t : Txn} (h : takeTxn bytes = .txn t rest) :
    t.WellFormed ∧ bytes = txnBytes t ++ rest := by
  rcases bytes with _ | ⟨b0, _ | ⟨b1, _ | ⟨b2, _ | ⟨b3, tail⟩⟩⟩⟩
  · exact absurd h (by simp [takeTxn])
  · exact absurd h (by simp [takeTxn])
  · exact absurd h (by simp [takeTxn])
  · exact absurd h (by simp [takeTxn])
  · rw [takeTxn] at h
    split at h
    · next hl =>
      cases h
      refine ⟨?_, ?_⟩
      · change (List.take _ _).length = paylen (wordOfBytes b0 b1 b2 b3)
        rw [List.length_take]; omega
      · simp only [txnBytes, wordBytes_wordOfBytes, List.cons_append, List.nil_append, List.take_append_drop]
    · cases h

/-- The byte-stream decoder on the bytes of a well-formed transaction (R77, R78). -/
theorem decodeBytes_txnBytes (t : Txn) (rest : List Byte) (ht : t.WellFormed) :
    decodeBytes (txnBytes t ++ rest) =
      match decode t.cw t.payload with
      | .command i => .command i rest
      | .illegal cw => .illegal cw rest := by
  cases hd : decode t.cw t.payload with
  | command i => simp only [decodeBytes, takeTxn_txnBytes t rest ht, hd]
  | illegal cw => simp only [decodeBytes, takeTxn_txnBytes t rest ht, hd]

/-- The commands a word can decode to, each with its word (R75, R77). -/
theorem decode_command {cw : Word} {payload : List Byte} {i : Instr} (h : decode cw payload = .command i) :
    encodeWord i = cw ∧ ((∃ len, i = .update len payload) ∨ payloadOf i = [] ∧ ∀ len p, i ≠ .update len p) := by
  unfold decode at h
  split at h
  · next h1 =>
    obtain ⟨ho, _, hr, hi⟩ := h1
    rw [Alg.ofCode] at h
    split at h
    · next a ha =>
      cases h
      split at ha <;> [skip; split at ha] <;> [skip; skip; split at ha] <;> [skip; skip; skip; split at ha] <;>
        [skip; skip; skip; skip; split at ha] <;> cases ha <;>
        exact ⟨word_eq_of_fields (by simp [Instr.create, encodeWord, ho]) (by simp [Instr.create, encodeWord, *])
          (by simp [Instr.create, encodeWord, hr]) (by simp [Instr.create, encodeWord, hi]), .inr ⟨rfl, by simp [Instr.create]⟩⟩
    · cases h
  · split at h
    · next h2 =>
      cases h
      exact ⟨word_eq_of_fields (by simp [encodeWord, h2.1]) (by simp [encodeWord, h2.2.1]) (by simp [encodeWord, h2.2.2])
        (by simp [encodeWord]), .inr ⟨rfl, by simp⟩⟩
    · split at h
      · next h3 =>
        cases h
        exact ⟨word_eq_of_fields (by simp [encodeWord, h3.1]) (by simp [encodeWord, h3.2.1]) (by simp [encodeWord, h3.2.2])
          (by simp [encodeWord]), .inl ⟨_, rfl⟩⟩
      · split at h
        · next h4 => cases h; exact ⟨h4 ▸ (by decide), .inr ⟨rfl, by simp⟩⟩
        · split at h
          · next h5 => cases h; exact ⟨h5 ▸ (by decide), .inr ⟨rfl, by simp⟩⟩
          · split at h
            · next h6 => cases h; exact ⟨h6 ▸ (by decide), .inr ⟨rfl, by simp⟩⟩
            · cases h

/-- An illegal word is rejected under its own name, whatever follows it (R76). -/
theorem decode_illegal {cw v : Word} {payload : List Byte} (h : decode cw payload = .illegal v) : v = cw := by
  unfold decode at h
  repeat' split at h
  all_goals (cases h <;> rfl)

/-- The payload length of a command's word is its `len` for UPDATE, else 0 (R77). -/
theorem paylen_encodeWord (i : Instr) : paylen (encodeWord i) = match i with
    | .update len _ => len.toNat
    | .createSha1 | .createSha2_224 | .createSha2_256 | .createSha2_384 | .createSha2_512 => 0
    | .createBw _ | .digest | .reset | .status => 0 := by
  cases i <;> simp [paylen, encodeWord]

/-- A word with a payload length other than 0 is an UPDATE word. -/
theorem decode_of_paylen {cw : Word} {payload : List Byte} (h : paylen cw ≠ 0) :
    decode cw payload = .command (.update (immField cw) payload) := by
  unfold paylen at h
  split at h
  · next h3 =>
    unfold decode
    rw [if_neg (by rw [h3.1]; simp), if_neg (by rw [h3.1]; simp), if_pos h3]
  · exact absurd rfl h

end Sys2Proof
end

