-- ==== Sys2Proof/Laws/State.lean ====
section
/-! SUPPORT. The fields of a state after each shared update, one lemma per field per update. -/

namespace Sys2Proof.Machine

/-! ### advance -/

@[simp] theorem advance_bound (s : State) : (advance s).bound = s.bound := rfl
@[simp] theorem advance_buf (s : State) : (advance s).buf = s.buf := rfl
@[simp] theorem advance_bp (s : State) : (advance s).bp = s.bp := rfl
@[simp] theorem advance_total (s : State) : (advance s).total = s.total := rfl
@[simp] theorem advance_err (s : State) : (advance s).err = s.err := rfl
@[simp] theorem advance_ecause (s : State) : (advance s).ecause = s.ecause := rfl
@[simp] theorem advance_fault (s : State) : (advance s).fault = s.fault := rfl
@[simp] theorem advance_out (s : State) : (advance s).out = s.out := rfl
@[simp] theorem advance_trace (s : State) : (advance s).trace = s.trace := rfl
@[simp] theorem advance_pc (s : State) : (advance s).pc = s.pc + 1 := rfl
@[simp] theorem advance_port (s : State) : (advance s).port = s.port := rfl

/-! ### emit -/

@[simp] theorem emit_bound (bytes : List Byte) (s : State) : (emit bytes s).bound = s.bound := rfl
@[simp] theorem emit_buf (bytes : List Byte) (s : State) : (emit bytes s).buf = s.buf := rfl
@[simp] theorem emit_bp (bytes : List Byte) (s : State) : (emit bytes s).bp = s.bp := rfl
@[simp] theorem emit_total (bytes : List Byte) (s : State) : (emit bytes s).total = s.total := rfl
@[simp] theorem emit_err (bytes : List Byte) (s : State) : (emit bytes s).err = s.err := rfl
@[simp] theorem emit_ecause (bytes : List Byte) (s : State) : (emit bytes s).ecause = s.ecause := rfl
@[simp] theorem emit_fault (bytes : List Byte) (s : State) : (emit bytes s).fault = s.fault := rfl
@[simp] theorem emit_out (bytes : List Byte) (s : State) : (emit bytes s).out = s.out ++ bytes := rfl
@[simp] theorem emit_trace (bytes : List Byte) (s : State) : (emit bytes s).trace = s.trace := rfl
@[simp] theorem emit_pc (bytes : List Byte) (s : State) : (emit bytes s).pc = s.pc := rfl
@[simp] theorem emit_port (bytes : List Byte) (s : State) : (emit bytes s).port = s.port := rfl

/-! ### countBytes -/

@[simp] theorem countBytes_bound (n : Nat) (s : State) : (countBytes n s).bound = s.bound := rfl
@[simp] theorem countBytes_buf (n : Nat) (s : State) : (countBytes n s).buf = s.buf := rfl
@[simp] theorem countBytes_bp (n : Nat) (s : State) : (countBytes n s).bp = s.bp := rfl
@[simp] theorem countBytes_total (n : Nat) (s : State) :
    (countBytes n s).total = BitVec.ofNat 128 (s.total.toNat + n) := rfl
@[simp] theorem countBytes_err (n : Nat) (s : State) : (countBytes n s).err = s.err := rfl
@[simp] theorem countBytes_ecause (n : Nat) (s : State) : (countBytes n s).ecause = s.ecause := rfl
@[simp] theorem countBytes_fault (n : Nat) (s : State) : (countBytes n s).fault = s.fault := rfl
@[simp] theorem countBytes_out (n : Nat) (s : State) : (countBytes n s).out = s.out := rfl
@[simp] theorem countBytes_trace (n : Nat) (s : State) : (countBytes n s).trace = s.trace := rfl
@[simp] theorem countBytes_pc (n : Nat) (s : State) : (countBytes n s).pc = s.pc := rfl
@[simp] theorem countBytes_port (n : Nat) (s : State) : (countBytes n s).port = s.port := rfl

/-! ### reject -/

@[simp] theorem reject_bound (cause : RejectCause) (cw : Word) (s : State) :
    (reject cause cw s).bound = s.bound := rfl
@[simp] theorem reject_buf (cause : RejectCause) (cw : Word) (s : State) : (reject cause cw s).buf = s.buf := rfl
@[simp] theorem reject_bp (cause : RejectCause) (cw : Word) (s : State) : (reject cause cw s).bp = s.bp := rfl
@[simp] theorem reject_total (cause : RejectCause) (cw : Word) (s : State) :
    (reject cause cw s).total = s.total := rfl
@[simp] theorem reject_err (cause : RejectCause) (cw : Word) (s : State) : (reject cause cw s).err = true := rfl
@[simp] theorem reject_ecause (cause : RejectCause) (cw : Word) (s : State) :
    (reject cause cw s).ecause = if s.err then s.ecause else some cause := rfl
@[simp] theorem reject_fault (cause : RejectCause) (cw : Word) (s : State) :
    (reject cause cw s).fault = s.fault.or (some ⟨cause, cw, s.pc⟩) := rfl
@[simp] theorem reject_out (cause : RejectCause) (cw : Word) (s : State) : (reject cause cw s).out = s.out := rfl
@[simp] theorem reject_trace (cause : RejectCause) (cw : Word) (s : State) :
    (reject cause cw s).trace = s.trace := rfl
@[simp] theorem reject_pc (cause : RejectCause) (cw : Word) (s : State) : (reject cause cw s).pc = s.pc + 1 := rfl
@[simp] theorem reject_port (cause : RejectCause) (cw : Word) (s : State) : (reject cause cw s).port = s.port := rfl

/-! ### resetContext -/

@[simp] theorem resetContext_bound (cap : Capability) (a : Alg) (s : State) :
    (resetContext cap a s).bound = some ⟨a, cap.initState a⟩ := rfl
@[simp] theorem resetContext_buf (cap : Capability) (a : Alg) (s : State) :
    (resetContext cap a s).buf = zeroedBuffer := rfl
@[simp] theorem resetContext_bp (cap : Capability) (a : Alg) (s : State) : (resetContext cap a s).bp = 0 := rfl
@[simp] theorem resetContext_total (cap : Capability) (a : Alg) (s : State) : (resetContext cap a s).total = 0 := rfl
@[simp] theorem resetContext_err (cap : Capability) (a : Alg) (s : State) : (resetContext cap a s).err = s.err := rfl
@[simp] theorem resetContext_ecause (cap : Capability) (a : Alg) (s : State) :
    (resetContext cap a s).ecause = s.ecause := rfl
@[simp] theorem resetContext_fault (cap : Capability) (a : Alg) (s : State) :
    (resetContext cap a s).fault = s.fault := rfl
@[simp] theorem resetContext_out (cap : Capability) (a : Alg) (s : State) : (resetContext cap a s).out = s.out := rfl
@[simp] theorem resetContext_trace (cap : Capability) (a : Alg) (s : State) :
    (resetContext cap a s).trace = s.trace ++ [.initState a (cap.initState a)] := rfl
@[simp] theorem resetContext_pc (cap : Capability) (a : Alg) (s : State) : (resetContext cap a s).pc = s.pc := rfl
@[simp] theorem resetContext_port (cap : Capability) (a : Alg) (s : State) :
    (resetContext cap a s).port = s.port := rfl

/-! ### putWork -/

@[simp] theorem putWork_bound (s : State) (a : Alg) (w : Work a.fam) : (s.putWork a w).bound = some ⟨a, w.h⟩ := rfl
@[simp] theorem putWork_buf (s : State) (a : Alg) (w : Work a.fam) : (s.putWork a w).buf = w.buf := rfl
@[simp] theorem putWork_bp (s : State) (a : Alg) (w : Work a.fam) : (s.putWork a w).bp = BitVec.ofNat 7 w.bp := rfl
@[simp] theorem putWork_total (s : State) (a : Alg) (w : Work a.fam) : (s.putWork a w).total = s.total := rfl
@[simp] theorem putWork_err (s : State) (a : Alg) (w : Work a.fam) : (s.putWork a w).err = s.err := rfl
@[simp] theorem putWork_ecause (s : State) (a : Alg) (w : Work a.fam) : (s.putWork a w).ecause = s.ecause := rfl
@[simp] theorem putWork_fault (s : State) (a : Alg) (w : Work a.fam) : (s.putWork a w).fault = s.fault := rfl
@[simp] theorem putWork_out (s : State) (a : Alg) (w : Work a.fam) : (s.putWork a w).out = s.out := rfl
@[simp] theorem putWork_trace (s : State) (a : Alg) (w : Work a.fam) : (s.putWork a w).trace = w.trace := rfl
@[simp] theorem putWork_pc (s : State) (a : Alg) (w : Work a.fam) : (s.putWork a w).pc = s.pc := rfl
@[simp] theorem putWork_port (s : State) (a : Alg) (w : Work a.fam) : (s.putWork a w).port = s.port := rfl

/-! ### absorb -/

@[simp] theorem absorb_bound (cap : Capability) (s : State) (b : Binding) (p : List Byte) :
    (s.absorb cap b p).bound = some ⟨b.alg, (absorb cap (s.work b) p).h⟩ := rfl
@[simp] theorem absorb_buf (cap : Capability) (s : State) (b : Binding) (p : List Byte) :
    (s.absorb cap b p).buf = (absorb cap (s.work b) p).buf := rfl
@[simp] theorem absorb_bp (cap : Capability) (s : State) (b : Binding) (p : List Byte) :
    (s.absorb cap b p).bp = BitVec.ofNat 7 (absorb cap (s.work b) p).bp := rfl
@[simp] theorem absorb_total (cap : Capability) (s : State) (b : Binding) (p : List Byte) :
    (s.absorb cap b p).total = s.total := rfl
@[simp] theorem absorb_err (cap : Capability) (s : State) (b : Binding) (p : List Byte) :
    (s.absorb cap b p).err = s.err := rfl
@[simp] theorem absorb_ecause (cap : Capability) (s : State) (b : Binding) (p : List Byte) :
    (s.absorb cap b p).ecause = s.ecause := rfl
@[simp] theorem absorb_fault (cap : Capability) (s : State) (b : Binding) (p : List Byte) :
    (s.absorb cap b p).fault = s.fault := rfl
@[simp] theorem absorb_out (cap : Capability) (s : State) (b : Binding) (p : List Byte) :
    (s.absorb cap b p).out = s.out := rfl
@[simp] theorem absorb_trace (cap : Capability) (s : State) (b : Binding) (p : List Byte) :
    (s.absorb cap b p).trace = (absorb cap (s.work b) p).trace := rfl
@[simp] theorem absorb_pc (cap : Capability) (s : State) (b : Binding) (p : List Byte) :
    (s.absorb cap b p).pc = s.pc := rfl
@[simp] theorem absorb_port (cap : Capability) (s : State) (b : Binding) (p : List Byte) :
    (s.absorb cap b p).port = s.port := rfl

/-! ### emitStatus -/

@[simp] theorem emitStatus_bound (s : State) : (emitStatus s).bound = s.bound := rfl
@[simp] theorem emitStatus_buf (s : State) : (emitStatus s).buf = s.buf := rfl
@[simp] theorem emitStatus_bp (s : State) : (emitStatus s).bp = s.bp := rfl
@[simp] theorem emitStatus_total (s : State) : (emitStatus s).total = s.total := rfl
@[simp] theorem emitStatus_err (s : State) : (emitStatus s).err = s.err := rfl
@[simp] theorem emitStatus_ecause (s : State) : (emitStatus s).ecause = s.ecause := rfl
@[simp] theorem emitStatus_fault (s : State) : (emitStatus s).fault = s.fault := rfl
@[simp] theorem emitStatus_out (s : State) : (emitStatus s).out = s.out ++ wordBytes (statusWord s) := rfl
@[simp] theorem emitStatus_trace (s : State) : (emitStatus s).trace = s.trace := rfl
@[simp] theorem emitStatus_pc (s : State) : (emitStatus s).pc = s.pc + 1 := rfl
@[simp] theorem emitStatus_port (s : State) : (emitStatus s).port = s.port := rfl

/-! ### withFetchWord -/

@[simp] theorem withFetchWord_bound (s : State) (nbits w : Nat) : (s.withFetchWord nbits w).bound = s.bound := rfl
@[simp] theorem withFetchWord_buf (s : State) (nbits w : Nat) : (s.withFetchWord nbits w).buf = s.buf := rfl
@[simp] theorem withFetchWord_bp (s : State) (nbits w : Nat) : (s.withFetchWord nbits w).bp = s.bp := rfl
@[simp] theorem withFetchWord_total (s : State) (nbits w : Nat) : (s.withFetchWord nbits w).total = s.total := rfl
@[simp] theorem withFetchWord_err (s : State) (nbits w : Nat) : (s.withFetchWord nbits w).err = s.err := rfl
@[simp] theorem withFetchWord_ecause (s : State) (nbits w : Nat) : (s.withFetchWord nbits w).ecause = s.ecause := rfl
@[simp] theorem withFetchWord_fault (s : State) (nbits w : Nat) : (s.withFetchWord nbits w).fault = s.fault := rfl
@[simp] theorem withFetchWord_out (s : State) (nbits w : Nat) : (s.withFetchWord nbits w).out = s.out := rfl
@[simp] theorem withFetchWord_trace (s : State) (nbits w : Nat) : (s.withFetchWord nbits w).trace = s.trace := rfl
@[simp] theorem withFetchWord_pc (s : State) (nbits w : Nat) : (s.withFetchWord nbits w).pc = s.pc := rfl
@[simp] theorem withFetchWord_port (s : State) (nbits w : Nat) :
    (s.withFetchWord nbits w).port = s.port.push (tableTxn nbits w) := rfl

end Sys2Proof.Machine
end

