-- ==== Sys2Proof/Laws/Ops.lean ====
section
/-! SUPPORT. Everything each shared operation can do, said once: where it completes, and what follows when it answers a next
state (spec R101, R102, R126, R127, R128, R180, R208). -/

namespace Sys2Proof.Machine

/-- UPDATE of a well-formed command on a bound engine within the length limit (R127). -/
theorem updateWith_bound (cap : Capability) (len : Half) (payload : List Byte) (s : State) (b : Binding)
    (hl : payload.length = len.toNat) (hb : s.bound = some b)
    (hmax : s.total.toNat + len.toNat ≤ b.alg.maxMessageBytes) (hbp : s.bp.toNat < b.alg.blockBytes) :
    updateWith cap len payload s =
      .next (advance (countBytes len.toNat (s.absorb cap b payload))) := by
  simp only [updateWith, operandValue, hl, hb, ne_eq, not_true_eq_false, if_false]
  rw [if_neg (by omega), if_neg (by omega)]

/-- UPDATE of a well-formed command on an unbound engine is rejected (R203). -/
theorem updateWith_unbound (cap : Capability) (len : Half) (payload : List Byte) (s : State)
    (hl : payload.length = len.toNat) (hb : s.bound = none) :
    updateWith cap len payload s = .next (rejectUnbound (.update len payload) s) := by
  simp [updateWith, operandValue, hl, hb]

/-- What UPDATE can do when it answers a next state. -/
theorem updateWith_next {cap : Capability} {len : Half} {payload : List Byte} {s t : State}
    (h : updateWith cap len payload s = .next t) :
    payload.length = len.toNat ∧
      ((s.bound = none ∧ t = rejectUnbound (.update len payload) s) ∨
        ∃ b, s.bound = some b ∧ s.total.toNat + len.toNat ≤ b.alg.maxMessageBytes ∧ s.bp.toNat < b.alg.blockBytes ∧
          t = advance (countBytes len.toNat (s.absorb cap b payload))) := by
  unfold updateWith operandValue at h
  split at h
  · cases h
  · next hl =>
    refine ⟨not_not.1 hl, ?_⟩
    split at h
    · next hb => cases h; exact .inl ⟨hb, rfl⟩
    · next b hb =>
      split at h
      · cases h
      · split at h
        · cases h
        · cases h; exact .inr ⟨b, hb, by omega, by omega, rfl⟩

/-- DIGEST on a bound engine (R128). -/
theorem digestWith_bound (cap : Capability) (s : State) (b : Binding) (hb : s.bound = some b)
    (hbp : s.bp.toNat < b.alg.blockBytes) :
    digestWith cap s = .next (advance (emit (digestBytes cap b s)
      (resetContext cap b.alg (s.absorb cap b (pad s.total.toNat b.alg.blockBytes))))) := by
  simp only [digestWith, hb]
  rw [if_neg (by omega)]

/-- What DIGEST can do when it answers a next state. -/
theorem digestWith_next {cap : Capability} {s t : State} (h : digestWith cap s = .next t) :
    (s.bound = none ∧ t = rejectUnbound .digest s) ∨
      ∃ b, s.bound = some b ∧ s.bp.toNat < b.alg.blockBytes ∧
        t = advance (emit (digestBytes cap b s)
          (resetContext cap b.alg (s.absorb cap b (pad s.total.toNat b.alg.blockBytes)))) := by
  unfold digestWith at h
  split at h
  · next hb => cases h; exact .inl ⟨hb, rfl⟩
  · next b hb =>
    split at h
    · cases h
    · cases h; exact .inr ⟨b, hb, by omega, rfl⟩

theorem resetWith_unbound (cap : Capability) (s : State) (hb : s.bound = none) :
    resetWith cap s = rejectUnbound .reset s := by
  simp [resetWith, hb]

theorem resetWith_bound (cap : Capability) (s : State) (b : Binding) (hb : s.bound = some b) :
    resetWith cap s = advance (resetContext cap b.alg s) := by
  simp [resetWith, hb]

/-- The algorithm that a CREATE or CREATE_BW command binds (R101, R102). -/
def createdAlg : Instr → Option Alg
  | .createSha1 => some .sha1
  | .createSha2_224 => some .sha2_224
  | .createSha2_256 => some .sha2_256
  | .createSha2_384 => some .sha2_384
  | .createSha2_512 => some .sha2_512
  | .createBw bw => some (select bw.toNat)
  | .update _ _ | .digest | .reset | .status => none

/-- CREATE and CREATE_BW complete in every state (R101, R102). -/
theorem exec_created {i : Instr} {a : Alg} (h : createdAlg i = some a) (s : State) :
    exec i s = .next (createWith Config.capability a s) := by
  cases i <;> simp only [createdAlg, Option.some.injEq, reduceCtorEq] at h <;> subst h <;> rfl

/-- Everything a command can do when it answers a next state: the one case split that every invariant needs. -/
theorem exec_next {i : Instr} {s t : State} (h : exec i s = .next t) :
    (∃ a, createdAlg i = some a ∧ t = createWith Config.capability a s) ∨
    (s.bound = none ∧ createdAlg i = none ∧ i ≠ .status ∧ t = rejectUnbound i s) ∨
    (∃ b, s.bound = some b ∧ i = .reset ∧ t = advance (resetContext Config.capability b.alg s)) ∨
    (∃ b len payload, s.bound = some b ∧ i = .update len payload ∧ payload.length = len.toNat ∧
      s.total.toNat + len.toNat ≤ b.alg.maxMessageBytes ∧ s.bp.toNat < b.alg.blockBytes ∧
      t = advance (countBytes len.toNat (s.absorb Config.capability b payload))) ∨
    (∃ b, s.bound = some b ∧ i = .digest ∧ s.bp.toNat < b.alg.blockBytes ∧
      t = advance (emit (digestBytes Config.capability b s)
        (resetContext Config.capability b.alg
          (s.absorb Config.capability b (pad s.total.toNat b.alg.blockBytes))))) ∨
    (i = .status ∧ t = emitStatus s) := by
  cases i with
  | createSha1 => exact .inl ⟨_, rfl, (Host.Outcome.next.inj h).symm⟩
  | createSha2_224 => exact .inl ⟨_, rfl, (Host.Outcome.next.inj h).symm⟩
  | createSha2_256 => exact .inl ⟨_, rfl, (Host.Outcome.next.inj h).symm⟩
  | createSha2_384 => exact .inl ⟨_, rfl, (Host.Outcome.next.inj h).symm⟩
  | createSha2_512 => exact .inl ⟨_, rfl, (Host.Outcome.next.inj h).symm⟩
  | createBw bw => exact .inl ⟨_, rfl, (Host.Outcome.next.inj h).symm⟩
  | update len payload =>
    obtain ⟨hl, ⟨hb, rfl⟩ | ⟨b, hb, hm, hp, rfl⟩⟩ := updateWith_next h
    · exact .inr (.inl ⟨hb, rfl, by simp, rfl⟩)
    · exact .inr (.inr (.inr (.inl ⟨b, len, payload, hb, rfl, hl, hm, hp, rfl⟩)))
  | digest =>
    obtain ⟨hb, rfl⟩ | ⟨b, hb, hp, rfl⟩ := digestWith_next h
    · exact .inr (.inl ⟨hb, rfl, by simp, rfl⟩)
    · exact .inr (.inr (.inr (.inr (.inl ⟨b, hb, rfl, hp, rfl⟩))))
  | reset =>
    have h' : resetWith Config.capability s = t := Host.Outcome.next.inj h
    cases hb : s.bound with
    | none => exact .inr (.inl ⟨rfl, rfl, by simp, by rw [← h', resetWith_unbound _ _ hb]⟩)
    | some b => exact .inr (.inr (.inl ⟨b, rfl, rfl, by rw [← h', resetWith_bound _ _ b hb]⟩))
  | status => exact .inr (.inr (.inr (.inr (.inr ⟨rfl, (Host.Outcome.next.inj h).symm⟩))))

end Sys2Proof.Machine
end

