-- ==== Sys2Proof/Laws/PerInstr.lean ====
section
/-! SUPPORT. The per-instruction family: a well-formed command's word decodes to that command and gives the length of its
payload (spec R75, R77). -/

namespace Sys2Proof.Laws.WordDecodes

/-- The word of a well-formed command decodes to it, and fixes the length of its payload. -/
def Statement (i : Instr) : Prop :=
  i.WellFormed → decode (encodeWord i) (payloadOf i) = .command i ∧ paylen (encodeWord i) = (payloadOf i).length

theorem createSha1 : Statement .createSha1 := fun _ => by decide

theorem createSha2_224 : Statement .createSha2_224 := fun _ => by decide

theorem createSha2_256 : Statement .createSha2_256 := fun _ => by decide

theorem createSha2_384 : Statement .createSha2_384 := fun _ => by decide

theorem createSha2_512 : Statement .createSha2_512 := fun _ => by decide

theorem createBw (bw : Half) : Statement (.createBw bw) := fun _ => by
  simp [decode, paylen, encodeWord, payloadOf]

theorem update (len : Half) (payload : List Byte) : Statement (.update len payload) := fun h => by
  simp only [Instr.WellFormed] at h
  simp [decode, paylen, encodeWord, payloadOf, h]

theorem digest : Statement .digest := fun _ => by decide

theorem reset : Statement .reset := fun _ => by decide

theorem status : Statement .status := fun _ => by decide

end Sys2Proof.Laws.WordDecodes
end

