-- ==== Sys2Proof/Laws/Step.lean ====
section
/-! SUPPORT. What a step does with what it finds at the host port (spec R57, R70, R77, R78, R202, R205). -/

namespace Sys2Proof.Machine

/-- Everything a step can do when it answers a next state. -/
theorem step_next {s t : State} (h : step s = .next t) :
    (∃ i rest, fetch s.port = .command i rest ∧ exec i { s with port := rest } = .next t) ∨
    (∃ cw rest, fetch s.port = .illegal cw rest ∧ t = reject .illegal cw { s with port := rest }) ∨
    (fetch s.port = .waiting ∧ t = s) := by
  unfold step at h
  split at h
  · next i rest hf => exact .inl ⟨i, rest, hf, h⟩
  · next cw rest hf => exact .inr (.inl ⟨cw, rest, hf, (Host.Outcome.next.inj h).symm⟩)
  · cases h
  · next hf => exact .inr (.inr ⟨hf, (Host.Outcome.next.inj h).symm⟩)

/-- An outcome with its next state mapped. -/
def mapOutcome (g : State → State) : Host.Outcome State Fault Refusal → Host.Outcome State Fault Refusal
  | .next s => .next (g s)
  | .fault r => .fault r
  | .refused r => .refused r

/-- No command reads or writes the host's stream (R61): a command in another stream does the same. -/
theorem exec_port (i : Instr) (s : State) (r : HostPort) :
    exec i { s with port := r } = mapOutcome (fun t => { t with port := r }) (exec i s) := by
  obtain ⟨bound, buf, bp, total, err, ecause, fault, out, trace, pc, port⟩ := s
  cases i with
  | update len p =>
    cases bound with
    | none =>
      simp only [exec, execUpdate, updateWith]
      split <;> rfl
    | some b =>
      simp only [exec, execUpdate, updateWith]
      split
      · rfl
      · split
        · rfl
        · split <;> rfl
  | digest =>
    cases bound with
    | none => rfl
    | some b =>
      simp only [exec, execDigest, digestWith]
      split <;> rfl
  | reset => cases bound <;> rfl
  | createSha1 => rfl
  | createSha2_224 => rfl
  | createSha2_256 => rfl
  | createSha2_384 => rfl
  | createSha2_512 => rfl
  | createBw bw => rfl
  | status => rfl

/-- A property that every command and every rejection keeps, and that the host's stream does not touch, is kept by every
step. -/
theorem step_keeps {P : State → Prop} (hport : ∀ s r, P s → P { s with port := r })
    (hexec : ∀ i s t, P s → exec i s = .next t → P t) (hrej : ∀ c cw s, P s → P (reject c cw s))
    {s t : State} (hs : P s) (h : step s = .next t) : P t := by
  obtain ⟨i, rest, _, he⟩ | ⟨cw, rest, _, rfl⟩ | ⟨_, rfl⟩ := step_next h
  · exact hexec i _ t (hport s rest hs) he
  · exact hrej _ _ _ (hport s rest hs)
  · exact hs

theorem fetchTxn_wf {t : Txn} (rest : HostPort) (ht : t.WellFormed) :
    fetchTxn t rest = match decode t.cw t.payload with
      | .command i => .command i rest
      | .illegal cw => .illegal cw rest := by
  cases hd : decode t.cw t.payload with
  | command i => simp only [fetchTxn, if_neg (not_not.2 ht), hd]
  | illegal cw => simp only [fetchTxn, if_neg (not_not.2 ht), hd]

/-- A byte-serial port finds in the bytes of a well-formed transaction what a transaction port finds in the
transaction (R78). -/
theorem fetch_bytes_txn (t : Txn) (rest : List Byte) (ht : t.WellFormed) :
    fetch (.bytes (txnBytes t ++ rest)) = fetchTxn t (.bytes rest) := by
  rw [fetch, decodeBytes_txnBytes t rest ht, fetchTxn_wf _ ht]
  cases decode t.cw t.payload <;> rfl

end Sys2Proof.Machine
end

