-- ==== Sys2Proof/Tests/Reference.lean ====
section
/-! SUPPORT. A reference instantiation of the capability, FIPS 180-4, and the reference digests of 95_test_vectors.md section
2.8 computed by the engine with it. The round functions and initial values are no part of the model: the spec leaves them
as parameters (R8, U5, U6) and names this instantiation as general knowledge (93_implementation_defined.md G5 to G8; log
entry 17). PRESUMED; safe, since nothing but these tests rests on it. -/

namespace Sys2Proof.Tests

open Sys2Proof Sys2Proof.Machine

/-! ### Numbers -/

/-- The number a byte list carries, its first byte the most significant (R51). -/
def beNat (bytes : List Byte) : Nat := bytes.foldl (fun acc b => 256 * acc + b.toNat) 0

/-- The largest `r` with `r ^ degree ≤ n` that `start` and the next lower bits make up. -/
def rootBits (degree n : Nat) : Nat → Nat → Nat
  | 0, start => start
  | bit + 1, start =>
    if (start + 2 ^ bit) ^ degree ≤ n then rootBits degree n bit (start + 2 ^ bit) else rootBits degree n bit start

/-- The root of `n` of the given degree with `fraction` bits after the point, rounded down; the roots here are below 16. -/
def scaledRoot (degree fraction n : Nat) : Nat := rootBits degree (n * 2 ^ (degree * fraction)) (fraction + 4) 0

/-- The primes up to 409, the eightieth. -/
def smallPrimes : List Nat :=
  (List.range 410).filter fun n => decide (2 ≤ n) && (List.range 21).all fun d => decide (d < 2 ∨ n ≤ d) || n % d != 0

/-- The words of a state written as one number, word 0 at the most significant end. -/
def packedWords (width count packed : Nat) : Vector (BitVec width) count :=
  Vector.ofFn fun i => BitVec.ofNat width (packed >>> (width * (count - 1 - i)))

/-! ### Message schedule and final addition, common to the families -/

/-- Prepend `n` schedule words, each made from the ones so far, which stand newest first. -/
def extend {width : Nat} (next : List (BitVec width) → BitVec width) : Nat → List (BitVec width) → List (BitVec width)
  | 0, newestFirst => newestFirst
  | n + 1, newestFirst => extend next n (next newestFirst :: newestFirst)

/-- The schedule of a block: its sixteen words and `n` more, oldest first. -/
def schedule {width : Nat} (next : List (BitVec width) → BitVec width) (n : Nat) (block : List Byte) :
    List (BitVec width) :=
  (extend next n ((List.range 16).reverse.map fun j =>
    BitVec.ofNat width (beNat ((block.drop (j * (width / 8))).take (width / 8))))).reverse

/-- The working variables after the rounds added to the state, word by word. -/
def addWords {width count : Nat} (h : Vector (BitVec width) count) (vars : List (BitVec width)) :
    Vector (BitVec width) count :=
  Vector.ofFn fun i => h[i] + vars.getD i 0

/-! ### SHA-1 -/

/-- The round function and constant of each quarter of 20 rounds: the constants are the square roots of 2, 3, 5 and 10. -/
def sha1Quarter (t : Nat) (x y z : Word) : Word :=
  match t / 20 with
  | 0 => (z ^^^ (x &&& (y ^^^ z))) + BitVec.ofNat 32 (scaledRoot 2 30 2)
  | 1 => (x ^^^ y ^^^ z) + BitVec.ofNat 32 (scaledRoot 2 30 3)
  | 2 => ((x &&& y) ||| (z &&& (x ||| y))) + BitVec.ofNat 32 (scaledRoot 2 30 5)
  | _ => (x ^^^ y ^^^ z) + BitVec.ofNat 32 (scaledRoot 2 30 10)

/-- One round on the five working variables. -/
def sha1Round (vars : List Word) (input : Nat × Word) : List Word :=
  match vars with
  | [v0, v1, v2, v3, v4] =>
    [v4 + input.2 + v0.rotateLeft 5 + sha1Quarter input.1 v1 v2 v3, v0, v1.rotateLeft 30, v2, v3]
  | other => other

def sha1Compress (h : Vector Word 5) (block : List Byte) : Vector Word 5 :=
  let next (ws : List Word) : Word :=
    ([2, 7, 13, 15].foldl (fun acc back => acc ^^^ ws.getD back 0) 0).rotateLeft 1
  addWords h (((List.range 80).zip (schedule next 64 block)).foldl sha1Round h.toList)

/-! ### SHA-2 -/

/-- The exclusive or of some rotations of a word. -/
def rotations {width : Nat} (amounts : List Nat) (x : BitVec width) : BitVec width :=
  amounts.foldl (fun acc r => acc ^^^ x.rotateRight r) 0

/-- The amounts that tell the SHA-2 widths apart: two sets of rotations for the rounds, and two sets of rotations with a
shift each for the schedule. -/
structure Sha2Amounts where
  round0 : List Nat
  round1 : List Nat
  early  : List Nat × Nat
  late   : List Nat × Nat

def amounts32 : Sha2Amounts := ⟨[2, 13, 22], [6, 11, 25], ([7, 18], 3), ([17, 19], 10)⟩

def amounts64 : Sha2Amounts := ⟨[28, 34, 39], [14, 18, 41], ([1, 8], 7), ([19, 61], 6)⟩

/-- One round on the eight working variables, with the sum of the round's constant and schedule word. -/
def sha2Round {width : Nat} (m : Sha2Amounts) (vars : List (BitVec width)) (input : BitVec width) : List (BitVec width) :=
  match vars with
  | [v0, v1, v2, v3, v4, v5, v6, v7] =>
    let carried := input + v7 + (v6 ^^^ (v4 &&& (v5 ^^^ v6))) + rotations m.round1 v4
    [carried + ((v0 &&& v1) ||| (v2 &&& (v0 ||| v1))) + rotations m.round0 v0, v0, v1, v2, v3 + carried, v4, v5, v6]
  | other => other

/-- The compression of one block in `rounds` rounds; the round constants are the fractions of the primes' cube roots. -/
def sha2Compress {width : Nat} (m : Sha2Amounts) (rounds : Nat) (h : Vector (BitVec width) 8) (block : List Byte) :
    Vector (BitVec width) 8 :=
  let mix (part : List Nat × Nat) (x : BitVec width) : BitVec width := rotations part.1 x ^^^ (x >>> part.2)
  let next (ws : List (BitVec width)) : BitVec width :=
    ws.getD 15 0 + ws.getD 6 0 + mix m.early (ws.getD 14 0) + mix m.late (ws.getD 1 0)
  let constants := (smallPrimes.take rounds).map fun q => BitVec.ofNat width (scaledRoot 3 width q)
  addWords h ((List.zipWith (· + ·) constants (schedule next (rounds - 16) block)).foldl (sha2Round m) h.toList)

/-- The capability of 93_implementation_defined.md Part 3 (G5, G8), its initial words as listed there. -/
def reference : Capability where
  initState
    | .sha1 => packedWords 32 5 0x67452301efcdab8998badcfe10325476c3d2e1f0
    | .sha2_224 => packedWords 32 8 0xc1059ed8367cd5073070dd17f70e5939ffc00b316858151164f98fa7befa4fa4
    | .sha2_256 => packedWords 32 8 0x6a09e667bb67ae853c6ef372a54ff53a510e527f9b05688c1f83d9ab5be0cd19
    | .sha2_384 => packedWords 64 8
      (0xcbbb9d5dc1059ed8629a292a367cd5079159015a3070dd17152fecd8f70e5939 * 2 ^ 256 +
        0x67332667ffc00b318eb44a8768581511db0c2e0d64f98fa747b5481dbefa4fa4)
    | .sha2_512 => packedWords 64 8
      (0x6a09e667f3bcc908bb67ae8584caa73b3c6ef372fe94f82ba54ff53a5f1d36f1 * 2 ^ 256 +
        0x510e527fade682d19b05688c2b3e6c1f1f83d9abfb41bd6b5be0cd19137e2179)
  compress
    | .sha1 => sha1Compress
    | .sha2_256 => sha2Compress amounts32 64
    | .sha2_512 => sha2Compress amounts64 80

/-- The response of DIGEST after CREATE and one UPDATE, from hardware reset, with the reference capability. -/
def referenceDigest (a : Alg) (data : List Byte) : List Byte :=
  let created := createWith reference a State.reset
  match updateWith reference (BitVec.ofNat 16 data.length) data created with
  | .next s =>
    match digestWith reference s with
    | .next t => t.out
    | .fault _ => []
    | .refused _ => []
  | .fault _ => []
  | .refused _ => []

/-- V1. -/
theorem test_reference_sha1_empty :
    referenceDigest .sha1 [] = beBytes 20
      0xda39a3ee5e6b4b0d3255bfef95601890afd80709 := by decide +kernel

/-- Section 2.8, SHA2-224 of "abc". -/
theorem test_reference_sha2_224_abc :
    referenceDigest .sha2_224 [0x61, 0x62, 0x63] = beBytes 28
      0x23097d223405d8228642a477bda255b32aadbce4bda0b3f7e36c9da7 := by
  decide +kernel

/-- V2. -/
theorem test_reference_sha2_256_abc :
    referenceDigest .sha2_256 [0x61, 0x62, 0x63] =
      beBytes 32
      0xba7816bf8f01cfea414140de5dae2223b00361a396177a9cb410ff61f20015ad := by
  decide +kernel

/-- Section 2.8, SHA2-384 of "abc". -/
theorem test_reference_sha2_384_abc :
    referenceDigest .sha2_384 [0x61, 0x62, 0x63] =
      beBytes 48
      0xcb00753f45a35e8bb5a03d699ac65007272c32ab0eded1631a8b605a43ff5bed8086072ba1e7cc2358baeca134c825a7 := by
  decide +kernel

/-- Section 2.8, SHA2-512 of 112 zero bytes: two compressions in DIGEST. -/
theorem test_reference_sha2_512_two_blocks :
    referenceDigest .sha2_512 (List.replicate 112 0) =
      beBytes 64
      0x2be2e788c8a8adeaa9c89a7f78904cacea6e39297d75e0573a73c756234534d6627ab4156b48a6657b29ab8beb73334040ad39ead81446bb09c70704ec707952 := by
  decide +kernel

/-- Section 2.8, SHA1 of 64 bytes: a compression in UPDATE. -/
theorem test_reference_sha1_full_block :
    referenceDigest .sha1 (List.replicate 64 0x61) = beBytes 20
      0x0098ba824b5c16427bd7a1122a5a442a25ec644d := by
  decide +kernel

end Sys2Proof.Tests
end

