-- ==== Sys2Proof/Tests/Slice0.lean ====
section
/-! SUPPORT. Small tests: expected values are those of 95_test_vectors.md or worked by hand from the rule named, never the
model's own answer; and, for every statement that has hypotheses, a state and operands that meet them together. -/

namespace Sys2Proof.Tests

open Sys2Proof Sys2Proof.Machine

/-! ### Helpers -/

/-- A state bound to `a` with `H` all zero, a zeroed buffer, and the counts after `n` message bytes (R33). -/
def boundState (a : Alg) (n : Nat) : State :=
  { State.reset with
    bound := some ⟨a, Vector.replicate _ 0⟩
    buf := zeroedBuffer
    bp := BitVec.ofNat 7 (n % a.blockBytes)
    total := BitVec.ofNat 128 n }

/-- One field of the next state, `none` where there is none. -/
def after {α : Type} (get : State → α) : Host.Outcome State Fault Refusal → Option α
  | .next s => some (get s)
  | .fault _ => none
  | .refused _ => none

/-- The fault an outcome ends in. -/
def faultOf : Host.Outcome State Fault Refusal → Option Fault
  | .fault r => some r
  | .next _ => none
  | .refused _ => none

/-- The refusal an outcome ends in. -/
def refusalOf : Host.Outcome State Fault Refusal → Option Refusal
  | .refused r => some r
  | .next _ => none
  | .fault _ => none

/-- `BP`, `TOTAL` and the number of calls recorded. -/
def counts (s : State) : Nat × Nat × Nat := (s.bp.toNat, s.total.toNat, s.trace.length)

/-! ### WellFormed: the one check, that an UPDATE's payload has `len` bytes (R70) -/

theorem smoke_update_short_payload : ¬ (Instr.update 3 [0x61]).WellFormed := by decide
theorem smoke_update_long_payload : ¬ (Instr.update 0 [0x61]).WellFormed := by decide
theorem smoke_update_exact_payload : (Instr.update 3 [0x61, 0x62, 0x63]).WellFormed := by decide

/-! ### Decoding, words of 95_test_vectors.md section 2.1 -/

theorem test_decode_create_sha1 : decode 0x00000001 [] = .command .createSha1 := by decide
theorem test_decode_create_sha2_224 : decode 0x00000011 [] = .command .createSha2_224 := by decide
theorem test_decode_create_sha2_256 : decode 0x00000021 [] = .command .createSha2_256 := by decide
theorem test_decode_create_sha2_384 : decode 0x00000031 [] = .command .createSha2_384 := by decide
theorem test_decode_create_sha2_512 : decode 0x00000041 [] = .command .createSha2_512 := by decide
theorem test_decode_create_bw :
    decode 0x00E00002 [] = .command (.createBw 224) ∧ decode 0xFFFF0002 [] = .command (.createBw 65535) := by decide
theorem test_decode_update :
    decode 0x00030003 [0x61, 0x62, 0x63] = .command (.update 3 [0x61, 0x62, 0x63]) ∧
      decode 0x00000003 [] = .command (.update 0 []) := by decide
theorem test_decode_digest : decode 0x00000004 [] = .command .digest := by decide
theorem test_decode_reset : decode 0x00000005 [] = .command .reset := by decide
theorem test_decode_status : decode 0x00000006 [] = .command .status := by decide

theorem test_decode_illegal_create :
    ([0x00000051, 0x000000F1, 0x00000101, 0x00010001, 0x00000012, 0x00000000] : List Word).map (decode · []) =
      [.illegal 0x00000051, .illegal 0x000000F1, .illegal 0x00000101, .illegal 0x00010001, .illegal 0x00000012,
        .illegal 0x00000000] := by decide

theorem test_decode_illegal_others :
    ([0x00000013, 0x00008003, 0x00010004, 0x00000014, 0x80000006, 0x00000007, 0x0000000F] : List Word).map (decode · []) =
      [.illegal 0x00000013, .illegal 0x00008003, .illegal 0x00010004, .illegal 0x00000014, .illegal 0x80000006,
        .illegal 0x00000007, .illegal 0x0000000F] := by decide

theorem test_paylen :
    paylen 0x00030003 = 3 ∧ paylen 0xFFFF0003 = 65535 ∧ paylen 0x00000003 = 0 ∧ paylen 0x00000013 = 0 ∧
      paylen 0x00008003 = 0 ∧ paylen 0xFFFF0002 = 0 := by decide

/-- The byte-stream corner of section 2.1: an illegal UPDATE-like word takes no payload, STATUS follows. -/
theorem test_illegal_word_takes_no_payload :
    decodeBytes [0x00, 0x00, 0x80, 0x03, 0x00, 0x00, 0x00, 0x06] = .illegal 0x00008003 [0x00, 0x00, 0x00, 0x06] ∧
      decodeBytes [0x00, 0x00, 0x00, 0x06] = .command .status [] := by decide

/-- The bytes of an UPDATE in program P1. -/
theorem test_encode_update :
    encode (.update 3 [0x61, 0x62, 0x63]) = [0x00, 0x03, 0x00, 0x03, 0x61, 0x62, 0x63] := by decide

theorem test_decode_waits_for_payload :
    decodeBytes [0x00, 0x03, 0x00, 0x03, 0x61, 0x62] = .wait ∧ decodeBytes [0x00, 0x00, 0x00] = .wait := by decide

/-- The ten words of the opcode table, operand bits where it has them. -/
theorem test_table_words :
    [0x01, 0x11, 0x21, 0x31, 0x41].map (decodeTableWord 32) =
        [some .createSha1, some .createSha2_224, some .createSha2_256, some .createSha2_384, some .createSha2_512] ∧
      decodeTableWord 32 0x02090002 = some (.createBw 521) ∧
      decodeTableWord 32 0x00020003 = some (.update 2 [0, 0]) ∧
      decodeTableWord 48 0x626100020003 = some (.update 2 [0x61, 0x62]) ∧
      [0x04, 0x05, 0x06].map (decodeTableWord 32) = [some .digest, some .reset, some .status] ∧
      decodeTableWord 32 0x00000051 = none := by decide

/-- Every row's word runs as the first command after reset; its `pc` becomes 1 (R35). -/
theorem test_table_words_run :
    ∀ w ∈ [0x01, 0x11, 0x21, 0x31, 0x41, 0x02090002, 0x00020003, 0x04, 0x05, 0x06],
      after (·.pc) (step (State.reset.withFetchWord 32 w)) = some 1 := by decide

/-! ### Selector, section 2.2 -/

theorem test_select :
    [0, 1, 160, 224, 225, 255, 256, 257, 383, 384, 385, 521, 65535].map (fun bw => (select bw).code) =
      [1, 1, 1, 1, 2, 2, 2, 3, 3, 3, 4, 4, 4] := by decide

theorem test_select_saturates :
    select (saturateWidth 100000).toNat = .sha2_512 ∧ select (saturateWidth (-5)).toNat = .sha2_224 := by decide

/-! ### CREATE and CREATE_BW, section 2.3: the STATUS word after -/

theorem test_create_sha1_over_message :
    after statusWord (exec .createSha1 (boundState .sha1 3)) = some 0x00000000 := by decide
theorem test_create_sha2_224_keeps_the_error :
    after statusWord (exec .createSha2_224 { State.reset with err := true, ecause := some .unbound }) =
      some 0x00020021 := by decide
theorem test_create_sha2_256 : after statusWord (exec .createSha2_256 State.reset) = some 0x00000002 := by decide
theorem test_create_sha2_384 : after statusWord (exec .createSha2_384 State.reset) = some 0x00000003 := by decide
theorem test_create_sha2_512_rebinds :
    after statusWord (exec .createSha2_512 (boundState .sha1 3)) = some 0x00000004 := by decide
theorem test_create_bw :
    after statusWord (exec (.createBw 521) State.reset) = some 0x00000004 ∧
      after statusWord (exec (.createBw 225) State.reset) = some 0x00000002 := by decide
theorem test_create_zeroes_the_buffer :
    after (fun s => (s.buf.get? 0, s.buf.get? 127, s.buf.get? 128)) (exec .createSha1 State.reset) =
      some (some 0, some 0, none) := by decide

/-! ### UPDATE, section 2.4 -/

/-- `p = 63`, `len = 2`, `B = 64`: one call, one byte pending, at offset 0. -/
theorem test_update_fills_and_goes_on :
    after counts (exec (.update 2 [0x61, 0x62]) (boundState .sha2_256 63)) = some (1, 65, 1) ∧
      after (fun s => (s.buf.get? 63, s.buf.get? 0)) (exec (.update 2 [0x61, 0x62]) (boundState .sha2_256 63)) =
        some (some 0x61, some 0x62) := by decide

/-- The 64-bit family: `p = 127`, `len = 1`: one call, nothing pending. -/
theorem test_update_fills_the_long_block :
    after counts (exec (.update 1 [0x61]) (boundState .sha2_384 127)) = some (0, 128, 1) := by decide

/-- The LENGTH corner: up to `LMAX` accepted, one more byte a fault, an empty UPDATE never. -/
theorem test_update_length_limit :
    after counts (exec (.update 1 [0x00]) (boundState .sha1 (2 ^ 61 - 2))) = some (63, 2 ^ 61 - 1, 0) ∧
      faultOf (exec (.update 1 [0x00]) (boundState .sha1 (2 ^ 61 - 1))) = some .length ∧
      after counts (exec (.update 0 []) (boundState .sha1 (2 ^ 61 - 1))) = some (63, 2 ^ 61 - 1, 0) ∧
      faultOf (exec (.update 1 [0x00]) (boundState .sha2_512 (2 ^ 125 - 1))) = some .length := by decide

/-- The UNBOUND corner, and the sticky corner of section 2.9: an ILLEGAL word after it changes no cause. -/
theorem test_update_unbound :
    after statusWord (exec (.update 3 [0x61, 0x62, 0x63]) State.reset) = some 0x0002002F ∧
      after (fun s => statusWord (reject .illegal 0 s)) (exec (.update 3 [0x61, 0x62, 0x63]) State.reset) =
        some 0x0002002F := by decide

theorem test_update_malformed : refusalOf (exec (.update 3 [0x61]) (boundState .sha1 0)) = some .malformed := by decide

/-! ### Padding, section 2.5 -/

theorem test_pad_zero_counts :
    [0, 1, 3, 55, 56, 57, 63, 64, 65, 119, 120, 2 ^ 61 - 1].map (fun n => padZeros n 64) =
        [55, 54, 52, 0, 63, 62, 56, 55, 54, 0, 63, 56] ∧
      [0, 3, 111, 112, 113, 127, 128, 239, 240, 2 ^ 125 - 1].map (fun n => padZeros n 128) =
        [111, 108, 0, 127, 126, 112, 111, 0, 127, 112] := by decide

theorem test_pad_of_three :
    pad 3 64 = 0x80 :: (List.replicate 52 0 ++ [0, 0, 0, 0, 0, 0, 0, 0x18]) := by decide

theorem test_pad_of_fifty_six :
    pad 56 64 = 0x80 :: (List.replicate 63 0 ++ [0, 0, 0, 0, 0, 0, 0x01, 0xC0]) := by decide

theorem test_pad_length_field_at_the_limit :
    (pad (2 ^ 61 - 1) 64).drop 57 = [0xFF, 0xFF, 0xFF, 0xFF, 0xFF, 0xFF, 0xFF, 0xF8] ∧
      (pad (2 ^ 125 - 1) 128).drop 113 = List.replicate 15 0xFF ++ [0xF8] := by decide

/-! ### Extraction, section 2.6 -/

theorem test_extract_sha1 :
    extract .sha1 #v[0x01234567#32, 0x89abcdef#32, 0xfedcba98#32, 0x76543210#32, 0x0f1e2d3c#32] 20 =
      [0x01, 0x23, 0x45, 0x67, 0x89, 0xab, 0xcd, 0xef, 0xfe, 0xdc, 0xba, 0x98, 0x76, 0x54, 0x32, 0x10, 0x0f, 0x1e, 0x2d,
        0x3c] := by decide

theorem test_extract_sha2_224_leaves_word_seven :
    extract .sha2_256 #v[1#32, 2#32, 3#32, 4#32, 5#32, 6#32, 7#32, 8#32] 28 =
      [0, 0, 0, 1, 0, 0, 0, 2, 0, 0, 0, 3, 0, 0, 0, 4, 0, 0, 0, 5, 0, 0, 0, 6, 0, 0, 0, 7] := by decide

theorem test_extract_sha2_384 :
    extract .sha2_512 #v[0x0011223344556677#64, 0x8899aabbccddeeff#64, 1#64, 2#64, 3#64, 4#64, 5#64, 6#64] 48 =
      [0x00, 0x11, 0x22, 0x33, 0x44, 0x55, 0x66, 0x77, 0x88, 0x99, 0xaa, 0xbb, 0xcc, 0xdd, 0xee, 0xff] ++
        (List.replicate 7 0 ++ [1]) ++ (List.replicate 7 0 ++ [2]) ++ (List.replicate 7 0 ++ [3]) ++
        (List.replicate 7 0 ++ [4]) := by decide

/-! ### DIGEST and RESET, section 2.7 -/

/-- At `b = 55` one `Compress`, at `b = 56` two, one `InitState` each; 20 bytes emitted; Fresh after. -/
theorem test_digest_calls :
    after counts (exec .digest (boundState .sha1 55)) = some (0, 0, 2) ∧
      after counts (exec .digest (boundState .sha1 56)) = some (0, 0, 3) := by decide

/-- The block DIGEST compresses after `UPDATE "abc"`, and the length of its response (section 2.7). -/
theorem test_digest_block :
    after (fun s => (s.trace.filterMap blockOf, s.out.length))
        (exec .digest { boundState .sha2_256 3 with buf := memWrite zeroedBuffer 0 [0x61, 0x62, 0x63] }) =
      some ([[0x61, 0x62, 0x63, 0x80] ++ List.replicate 52 0 ++ [0, 0, 0, 0, 0, 0, 0, 0x18]], 32) := by decide

theorem test_reset :
    after statusWord (exec .reset (boundState .sha1 3)) = some 0x00000000 ∧
      after (fun s => (s.trace.length, s.out)) (exec .reset (boundState .sha1 3)) = some (1, []) ∧
      after statusWord (exec .reset State.reset) = some 0x0002002F := by decide

/-! ### STATUS, section 2.9 -/

theorem test_status_words :
    [boundState .sha1 1, boundState .sha2_256 3, boundState .sha2_256 63, boundState .sha2_256 64,
        boundState .sha2_512 112, boundState .sha2_512 127].map statusWord =
      [0x00000110, 0x00000312, 0x00003F12, 0x00000012, 0x00007014, 0x00007F14] := by decide

theorem test_status_bytes :
    after (·.out) (exec .status State.reset) = some [0x00, 0x00, 0x00, 0x0F] ∧
      after (·.out) (exec .status (reject .illegal 0 (boundState .sha2_384 0))) = some [0x00, 0x01, 0x00, 0x23] := by
  decide

/-! ### Rejections -/

/-- Program P4's record: `FAULT = UNBOUND(0x00010003)` at `pc = 0`, never changed. -/
theorem test_fault_record :
    after (·.fault) (exec (.update 1 [0x61]) State.reset) = some (some ⟨.unbound, 0x00010003, 0⟩) ∧
      (reject .illegal 0 (reject .unbound 0x00010003 State.reset)).fault = some ⟨.unbound, 0x00010003, 0⟩ := by decide

/-! ### Written lines, sections 2.2 and 3 -/

theorem test_parse_update :
    parseLine ['U', 'P', 'D', 'A', 'T', 'E', ' ', '"', 'a', 'b', 'c', '"', ' ', ';', ' ', 'x'] =
      some [.update [0x61, 0x62, 0x63]] ∧
    parseLine ['u', 'p', 'd', 'a', 't', 'e', ' ', '0', 'x', '6', '1', ' ', '*', ' ', '3'] =
      some [.update [0x61, 0x61, 0x61]] := by decide

theorem test_parse_others :
    parseLine ['C', 'R', 'E', 'A', 'T', 'E', '_', 'B', 'W', ' ', '-', '5'] = some [.createBw (-5)] ∧
    parseLine ['H', 'A', 'S', 'H', ' ', 'S', 'H', 'A', '1', ',', ' ', 'x', '"', '0', '0', 'f', 'F', '"'] =
      some [.hash .sha1 [0x00, 0xFF]] ∧
    parseLine ['.', 'w', 'o', 'r', 'd', ' ', '0', 'x', '1', '0', '1'] = some [.word 0x101] ∧
    parseLine ['D', 'I', 'G', 'E', 'S', 'T', ' ', '1'] = none ∧ parseLine [' ', ';', 'x'] = some [] := by decide

/-- Program P3's words. -/
theorem test_assemble :
    assembleLine (.createBw 521) = [⟨0x02090002, []⟩] ∧ assembleLine (.createBw 100000) = [⟨0xFFFF0002, []⟩] ∧
      assembleLine (.hash .sha2_256 [0x61, 0x62, 0x63]) =
        [⟨0x00000021, []⟩, ⟨0x00030003, [0x61, 0x62, 0x63]⟩, ⟨0x00000004, []⟩] := by decide

/-! ### Witnesses: for each statement with hypotheses, a state and operands that meet them together -/

theorem witness_LegalWordsAreTheListedOnes :
    (decode 0x00000041 [] = .command (Instr.create .sha2_512) ∧ decode 0xFFFF0002 [] = .command (.createBw 0xFFFF)) ∧
      decode 0x00010003 [0x61] = .command (.update 1 [0x61]) ∧ decode 0x00000051 [] = .illegal 0x00000051 := by decide

theorem witness_PayloadLengthFollowsDecoding :
    decode 0xFFFF0003 [] = .command (.update 0xFFFF []) ∧ decode 0x00000003 [] = .command (.update 0 []) ∧
      ∀ len p, decode 0x00008003 [] ≠ .command (.update len p) := by
  refine ⟨by decide, by decide, fun len p h => ?_⟩
  have : decode 0x00008003 [] = .illegal 0x00008003 := by decide
  rw [this] at h
  cases h

theorem witness_DecodeOfEncodeIsTheCommand :
    (Instr.update 2 [0x61, 0x62]).WellFormed ∧ (Instr.createBw 0xFFFF).WellFormed ∧ Instr.digest.WellFormed := by decide

theorem witness_DecodedBytesAreTheEncoding :
    decodeBytes [0x00, 0x01, 0x00, 0x03, 0x61, 0xFF] = .command (.update 1 [0x61]) [0xFF] := by decide

theorem witness_IllegalWordTakesFourBytes : decode 0x00008003 [] = .illegal 0x00008003 := by decide

theorem witness_PseudoInstructionsKeepTheirOperands :
    (Instr.update 1 [0x61]) ∈ updateCommands [0x61] := by decide

theorem witness_StepRunsTheDecodedCommand :
    (let t : Txn := ⟨0x00010003, [0x61]⟩
     ({ State.reset with port := .transactions [t] } : State).port = .transactions (t :: []) ∧
       t.payload.length = paylen t.cw ∧ decode t.cw t.payload = .command (.update 1 [0x61])) ∧
    ({ State.reset with port := .bytes [0x00, 0x00, 0x00, 0x06, 0x00] } : State).port =
        .bytes [0x00, 0x00, 0x00, 0x06, 0x00] ∧
      decodeBytes [0x00, 0x00, 0x00, 0x06, 0x00] = .command .status [0x00] := by decide

theorem witness_IllegalWordIsRejected :
    decode 0x00000000 [] = .illegal 0x00000000 ∧
      ({ State.reset with port := .transactions [⟨0x00000000, []⟩] } : State).port =
        .transactions (⟨0x00000000, []⟩ :: []) ∧
      ({ State.reset with port := .bytes [0x00, 0x00, 0x00, 0x00] } : State).port =
        .bytes (wordBytes 0x00000000 ++ []) := by decide

theorem witness_MalformedTransactionIsRefused :
    (let t : Txn := ⟨0x00020003, [0x61]⟩
     ({ State.reset with port := .transactions [t] } : State).port = .transactions (t :: []) ∧
       t.payload.length ≠ paylen t.cw) ∧
      [(0x61 : Byte)].length ≠ (2 : Half).toNat ∧
      ({ State.reset with port := .bytes [0x00] } : State).port = .bytes [0x00] := by decide

theorem witness_IdleEngineHoldsItsState :
    State.reset.port = .transactions [] ∧
      (({ State.reset with port := .bytes [0x00, 0x00, 0x00] } : State).port = .bytes [0x00, 0x00, 0x00] ∧
        [(0x00 : Byte), 0x00, 0x00].length < 4) ∧
      ({ State.reset with port := .bytes [0x00, 0x02, 0x00, 0x03, 0x61] } : State).port =
          .bytes (wordBytes 0x00020003 ++ [0x61]) ∧
        [(0x61 : Byte)].length < paylen 0x00020003 := by decide

theorem witness_ByteSerialPortRunsAlike :
    ∀ t ∈ [(⟨0x00010003, [0x61]⟩ : Txn), ⟨0x00000006, []⟩], t.WellFormed := by decide

theorem witness_StrengthSelectorThresholds :
    (385 : Nat) > 384 ∧ (256 < (384 : Nat) ∧ (384 : Nat) ≤ 384) ∧ (256 < (257 : Nat) ∧ (257 : Nat) ≤ 384) ∧
      (224 < (256 : Nat) ∧ (256 : Nat) ≤ 256) ∧ (224 < (225 : Nat) ∧ (225 : Nat) ≤ 256) ∧ (224 : Nat) ≤ 224 ∧
      (65535 : Int) < 65536 ∧ (-1 : Int) < 0 := by decide

theorem witness_CreateBindsAndResets : (boundState .sha1 3).alg = some .sha1 := by decide

theorem witness_ResetReturnsToFresh :
    (boundState .sha2_256 3).bound = some ⟨.sha2_256, Vector.replicate _ 0⟩ := rfl

theorem witness_AbsorbCountsItsCalls :
    ((⟨zeroedBuffer, 63, Vector.replicate _ 0, []⟩ : Work .sha2_256).bp < Family.sha2_256.blockBytes) ∧
      ((⟨zeroedBuffer, 127, Vector.replicate _ 0, []⟩ : Work .sha2_512).bp < Family.sha2_512.blockBytes) := by decide

theorem witness_AbsorbChunkingIsInvisible :
    (⟨zeroedBuffer, 63, Vector.replicate _ 0, []⟩ : Work .sha1).bp < Family.sha1.blockBytes := by decide

theorem witness_AbsorbClosedForm :
    (⟨zeroedBuffer, 0, Vector.replicate _ 0, []⟩ : Work .sha1).bp = 0 ∧ 0 < [(0x61 : Byte)].length % 64 := by decide

theorem witness_UpdateAbsorbsItsPayload_unbound : [(0x61 : Byte)].length = (1 : Half).toNat ∧ State.reset.bound = none :=
  ⟨rfl, rfl⟩

theorem witness_UpdateAbsorbsItsPayload_length :
    [(0x61 : Byte)].length = (1 : Half).toNat ∧
      (boundState .sha1 (2 ^ 61 - 1)).bound = some ⟨.sha1, Vector.replicate _ 0⟩ ∧
      (boundState .sha1 (2 ^ 61 - 1)).total.toNat + (1 : Half).toNat > Alg.sha1.maxMessageBytes :=
  ⟨rfl, rfl, by decide⟩

theorem witness_UpdateAbsorbsItsPayload :
    [(0x61 : Byte)].length = (1 : Half).toNat ∧
      (boundState .sha1 (2 ^ 61 - 2)).bound = some ⟨.sha1, Vector.replicate _ 0⟩ ∧
      (boundState .sha1 (2 ^ 61 - 2)).total.toNat + (1 : Half).toNat ≤ Alg.sha1.maxMessageBytes ∧
      (boundState .sha1 (2 ^ 61 - 2)).bp.toNat < Alg.sha1.blockBytes :=
  ⟨rfl, rfl, by decide, by decide⟩

theorem witness_UpdateStoresOnlyItsBytes :
    ((∃ t, exec (.update 1 [0x61]) (boundState .sha2_256 63) = .next t) ∧
      (boundState .sha2_256 63).bound = some ⟨.sha2_256, Vector.replicate _ 0⟩ ∧
      ∀ i < [(0x61 : Byte)].length, 62 ≠ ((boundState .sha2_256 63).bp.toNat + i) % Alg.sha2_256.blockBytes) ∧
    (∃ t, exec (.update 1 [0x61]) State.reset = .next t) ∧ State.reset.bound = none :=
  ⟨⟨⟨_, rfl⟩, rfl, by decide⟩, ⟨_, rfl⟩, rfl⟩

theorem witness_SplittingAnUpdateIsInvisible :
    (boundState .sha2_256 63).bound = some ⟨.sha2_256, Vector.replicate _ 0⟩ ∧
      (boundState .sha2_256 63).bp.toNat < Alg.sha2_256.blockBytes ∧
      [[(0x61 : Byte)], [], [0x62]].flatten.length ≤ 65535 ∧
      (boundState .sha2_256 63).total.toNat + [[(0x61 : Byte)], [], [0x62]].flatten.length ≤
        Alg.sha2_256.maxMessageBytes :=
  ⟨rfl, by decide, by decide, by decide⟩

theorem witness_PaddingProperties :
    ((64 : Nat) = 64 ∨ (64 : Nat) = 128) ∧ ((128 : Nat) = 64 ∨ (128 : Nat) = 128) ∧
      (55 + (1 + 0 + 64 / 8)) % 64 = 0 ∧ (56 + (1 + 63 + 64 / 8)) % 64 = 0 ∧
      8 * (2 ^ 61 - 1) < 2 ^ (8 * (64 / 8)) ∧ 8 * (2 ^ 125 - 1) < 2 ^ (8 * (128 / 8)) := by decide

theorem witness_ExtractIsBigEndian :
    20 ≤ Family.sha1.wordCount * (Family.sha1.wordBits / 8) ∧ Family.sha1.wordBits = 32 ∧
      64 ≤ Family.sha2_512.wordCount * (Family.sha2_512.wordBits / 8) ∧ Family.sha2_512.wordBits = 64 := by decide

theorem witness_DigestEmitsAndResets :
    State.reset.bound = none ∧ (boundState .sha2_512 127).bound = some ⟨.sha2_512, Vector.replicate _ 0⟩ ∧
      (boundState .sha2_512 127).bp.toNat < Alg.sha2_512.blockBytes :=
  ⟨rfl, rfl, by decide⟩

theorem witness_DigestMakesOneOrTwoCalls :
    ((boundState .sha1 55).bound = some ⟨.sha1, Vector.replicate _ 0⟩ ∧
      (boundState .sha1 55).bp.toNat = (boundState .sha1 55).total.toNat % Alg.sha1.blockBytes ∧
      (boundState .sha1 55).bp.toNat + Alg.sha1.lengthFieldBytes + 1 ≤ Alg.sha1.blockBytes) ∧
    (boundState .sha1 56).bound = some ⟨.sha1, Vector.replicate _ 0⟩ ∧
      (boundState .sha1 56).bp.toNat = (boundState .sha1 56).total.toNat % Alg.sha1.blockBytes ∧
      Alg.sha1.blockBytes < (boundState .sha1 56).bp.toNat + Alg.sha1.lengthFieldBytes + 1 :=
  ⟨⟨rfl, by decide, by decide⟩, rfl, by decide, by decide⟩

theorem witness_DigestLeavesAFreshContext :
    (boundState .sha1 3).bound = some ⟨.sha1, Vector.replicate _ 0⟩ ∧ (∃ t, exec .digest (boundState .sha1 3) = .next t) ∧
      (∃ v, exec (Instr.create .sha1) State.reset = .next v) ∧
      (∀ c ∈ [[(0x61 : Byte)], [0x62]], c.length ≤ 65535) ∧
      [[(0x61 : Byte)], [0x62]].flatten.length ≤ Alg.sha1.maxMessageBytes :=
  ⟨rfl, ⟨_, rfl⟩, ⟨_, rfl⟩, by decide, by decide⟩

theorem witness_ContextDecidesEveryCommand :
    SameContext (boundState .sha1 3) { boundState .sha1 3 with err := true, ecause := some .illegal, pc := 7 } ∧
      Instr.digest ≠ Instr.status :=
  ⟨⟨rfl, rfl, rfl, rfl⟩, by decide⟩

theorem witness_DigestIsTheMerkleDamgardFunction :
    (∀ c ∈ [[(0x61 : Byte)], [], [0x62]], c.length ≤ 65535) ∧
      [[(0x61 : Byte)], [], [0x62]].flatten.length ≤ Alg.sha2_512.maxMessageBytes := by decide

theorem witness_StateIsTheFoldOverTheMessage :
    (∃ t, exec .reset (boundState .sha1 3) = .next t ∧ t.alg = some .sha1) ∧ (boundState .sha1 3).bound ≠ none ∧
      (∃ t, exec .digest (boundState .sha2_512 127) = .next t ∧ t.alg = some .sha2_512) ∧
      (∃ t, exec (.createBw 225) State.reset = .next t ∧ t.alg = some .sha2_256) ∧
      (∀ c ∈ [[(0x61 : Byte)], [], [0x62]], c.length ≤ 65535) ∧
      [[(0x61 : Byte)], [], [0x62]].flatten.length ≤ Alg.sha1.maxMessageBytes :=
  ⟨⟨_, rfl, rfl⟩, nofun, ⟨_, rfl, rfl⟩, ⟨_, rfl, rfl⟩, by decide, by decide⟩

theorem witness_HashLineEmitsTheDigest : [(0x61 : Byte), 0x62].length ≤ Alg.sha1.maxMessageBytes := by decide

theorem witness_RejectionEffect :
    State.reset.err = false ∧ (reject .unbound 0x00000004 State.reset).err = true := by decide

theorem witness_UnboundCommandsAreRejected :
    State.reset.bound = none ∧ (Instr.update 1 [0x61]).WellFormed ∧
      ((∃ len payload, Instr.update 1 [0x61] = .update len payload) ∨ Instr.update 1 [0x61] = .digest ∨
        Instr.update 1 [0x61] = .reset) ∧
      ((∃ a, Instr.createSha1 = Instr.create a) ∨ (∃ bw, Instr.createSha1 = .createBw bw) ∨
        Instr.createSha1 = .status) :=
  ⟨rfl, rfl, .inl ⟨1, [0x61], rfl⟩, .inl ⟨.sha1, rfl⟩⟩

theorem witness_LengthFaultExactlyWhenExceeded :
    (Instr.update 1 [0x61]).WellFormed ∧ faultOf (exec (.update 1 [0x61]) (boundState .sha1 (2 ^ 61 - 1))) = some .length :=
  ⟨rfl, by decide⟩

theorem witness_LaunchState : (Instr.update 1 [0x61]).WellFormed ∧ Instr.status.WellFormed := by decide

theorem reset_inv : State.reset.Inv where
  buf_wf := rfl
  bound_ok := nofun
  unbound_ok := fun _ => ⟨rfl, rfl⟩
  err_ecause := rfl
  fault_ecause := rfl
  fault_pc := nofun

/-- A bound state that meets the invariant, a full block but one byte pending. -/
theorem bound_inv : (boundState .sha2_256 63).Inv where
  buf_wf := by decide
  bound_ok := fun b h => by
    obtain rfl : _ = b := Option.some.inj h
    refine ⟨by decide, by decide, by decide, fun o ho => ?_⟩
    show ((zeroedBuffer.get? o).isSome) = true
    rw [get?_zeroedBuffer, if_pos ho]
    rfl
  unbound_ok := nofun
  err_ecause := rfl
  fault_ecause := rfl
  fault_pc := nofun

theorem witness_OnlyLengthStopsACommand :
    (Instr.update 1 [0x61]).WellFormed ∧ State.reset.Inv ∧ (boundState .sha2_256 63).Inv := ⟨rfl, reset_inv, bound_inv⟩

/-- In the second and the third clause once with `ERR` clear and once with it set. -/
theorem witness_ChecksStandInOrder :
    (decode 0x00000000 [0x61] = .illegal 0x00000000 ∧ [(0x61 : Byte)] ≠ [] ∧
      ({ State.reset with port := .transactions [⟨0x00000000, [0x61]⟩] } : State).port =
        .transactions (⟨0x00000000, [0x61]⟩ :: [])) ∧
    (∀ s ∈ [State.reset, reject .unbound 0x00000004 State.reset],
      s.bound.isNone = true ∧
        ({ s with port := .transactions [⟨0x00000000, []⟩] } : State).port = .transactions (⟨0x00000000, []⟩ :: [])) ∧
    decode 0x00000000 [] = .illegal 0x00000000 ∧ State.reset.err = false ∧
      (reject .unbound 0x00000004 State.reset).err = true ∧ [(0x61 : Byte)].length = (1 : Half).toNat := by decide

theorem witness_ContextResettingFrame :
    (∃ t, exec .digest (boundState .sha1 3) = .next t) ∧ (∃ t, exec .createSha1 State.reset = .next t) ∧
      (∃ t, exec (.createBw 256) State.reset = .next t) ∧ (∃ t, exec .reset (boundState .sha1 3) = .next t) ∧
      (boundState .sha1 3).bound ≠ none :=
  ⟨⟨_, rfl⟩, ⟨_, rfl⟩, ⟨_, rfl⟩, ⟨_, rfl⟩, nofun⟩

theorem witness_StatusFrame : ∃ t, exec .status (boundState .sha1 3) = .next t := ⟨_, rfl⟩

theorem witness_ResponsesAreExact :
    ((∃ t, exec .digest (boundState .sha1 3) = .next t) ∧
      (boundState .sha1 3).bound = some ⟨.sha1, Vector.replicate _ 0⟩) ∧
    (∃ t, exec .status State.reset = .next t) ∧ (∃ t, exec .digest State.reset = .next t) ∧
    (let s : State := { State.reset with port := .transactions [⟨0x00000000, []⟩] }
     fetch s.port = .illegal 0x00000000 (.transactions []) ∧ ∃ t, step s = .next t) :=
  ⟨⟨⟨_, rfl⟩, rfl⟩, ⟨_, rfl⟩, ⟨_, rfl⟩, by decide, ⟨_, rfl⟩⟩

theorem witness_PcCountsTransactions :
    (∃ t, exec .digest (boundState .sha1 3) = .next t) ∧ (∃ t, step State.reset = .next t) ∧
      ∃ t, step (State.reset.withFetchWord 32 6) = .next t := ⟨⟨_, rfl⟩, ⟨_, rfl⟩, ⟨_, rfl⟩⟩

theorem witness_AlgorithmIsBoundOnlyByCreate :
    (∃ t, exec (Instr.create .sha1) State.reset = .next t) ∧
      (∃ t, exec .status State.reset = .next t ∧ (∀ a, Instr.status ≠ Instr.create a) ∧
        ∀ bw, Instr.status ≠ .createBw bw) ∧
      ∃ t, step (State.reset.withFetchWord 32 0x21) = .next t ∧ t.alg ≠ (State.reset.withFetchWord 32 0x21).alg :=
  ⟨⟨_, rfl⟩, ⟨_, rfl, by intro a; cases a <;> decide, by intro bw h; cases h⟩, ⟨_, rfl, by decide⟩⟩

theorem witness_TotalCountsMessageBytes :
    (∃ t, exec (.update 1 [0x61]) (boundState .sha1 3) = .next t) ∧ (boundState .sha1 3).bound ≠ none ∧
      (∃ t, exec .reset State.reset = .next t) ∧ State.reset.bound = none ∧
      ∃ t, exec .createSha1 State.reset = .next t ∧ t.bound = some ⟨.sha1, Config.capability.initState .sha1⟩ :=
  ⟨⟨_, rfl⟩, nofun, ⟨_, rfl⟩, rfl, ⟨_, rfl, rfl⟩⟩

/-- A step that makes no call, and one that makes a call. -/
theorem witness_OnlyTheCapabilityMutatesTheChain :
    (∃ t, step (State.reset.withFetchWord 32 6) = .next t ∧ t.trace = State.reset.trace ++ []) ∧
      ∃ t, step (State.reset.withFetchWord 32 0x21) = .next t ∧
        t.trace = State.reset.trace ++ [.initState .sha2_256 (Config.capability.initState .sha2_256)] :=
  ⟨⟨_, rfl, rfl⟩, ⟨_, rfl, rfl⟩⟩

theorem witness_QuietCommandsMakeNoCall :
    (∃ t, exec .status State.reset = .next t) ∧ (∃ t, exec (.update 0 []) (boundState .sha1 3) = .next t) ∧
      (∃ t, exec .digest State.reset = .next t) ∧ State.reset.bound = none ∧
      fetch (State.reset.withFetchWord 32 0x51).port = .illegal 0x00000051 (.transactions []) ∧
      ∃ t, step (State.reset.withFetchWord 32 0x51) = .next t :=
  ⟨⟨_, rfl⟩, ⟨_, rfl⟩, ⟨_, rfl⟩, rfl, by decide, ⟨_, rfl⟩⟩

theorem witness_StateMachineOfTheEngine :
    (∃ t, exec .createSha1 State.reset = .next t) ∧ State.reset.enginePhase = .unbound ∧
      (∃ t, exec (.update 1 [0x61]) (boundState .sha1 0) = .next t) ∧ (boundState .sha1 0).enginePhase = .fresh ∧
      (1 : Half) ≠ 0 ∧ (∃ t, exec (.update 0 []) (boundState .sha1 64) = .next t) ∧
      (boundState .sha1 64).enginePhase = .accumulating :=
  ⟨⟨_, rfl⟩, by decide, ⟨_, rfl⟩, by decide, by decide, ⟨_, rfl⟩, by decide⟩

theorem witness_ErrorRecordIsSticky :
    (let s := (reject .unbound 0x00000004 State.reset).withFetchWord 32 0
     s.err = true ∧ s.fault = some ⟨.unbound, 0x00000004, 0⟩ ∧ ∃ t, step s = .next t) ∧
    (boundState .sha1 3).bound ≠ none ∧ (∃ t, exec .digest (boundState .sha1 3) = .next t) :=
  ⟨⟨rfl, rfl, ⟨_, rfl⟩⟩, nofun, ⟨_, rfl⟩⟩

/-- Two states of 63 pending bytes that differ in the stale byte at offset 63. -/
theorem witness_StaleBytesAreNeverObserved :
    StaleEq (boundState .sha1 63) { boundState .sha1 63 with buf := zeroedBuffer.set 63 0xFF } where
  rest := rfl
  pending := fun o ho => by
    have h63 : (boundState .sha1 63).bp.toNat = 63 := by decide
    rw [h63] at ho
    show (zeroedBuffer.get? o).getD _ = ((zeroedBuffer.set 63 0xFF).get? o).getD _
    rw [Memory.get?_set_other _ _ (by omega)]

theorem witness_InstancesShareNothing :
    let sys : System 2 := systemReset 2
    (∃ s, step sys.engines[(0 : Fin 2)] = .next s) ∧ (∃ sys', systemStep 0 sys = .next sys') ∧ (1 : Fin 2) ≠ 0 :=
  ⟨⟨_, rfl⟩, ⟨_, rfl⟩, by decide⟩

theorem withFetchWord_inv : (State.reset.withFetchWord 32 0x21).Inv :=
  ⟨rfl, nofun, fun _ => ⟨rfl, rfl⟩, rfl, rfl, nofun⟩

theorem witness_StepKeepsTheInvariant :
    (State.reset.withFetchWord 32 0x21).Inv ∧ ∃ t, step (State.reset.withFetchWord 32 0x21) = .next t :=
  ⟨withFetchWord_inv, ⟨_, rfl⟩⟩

theorem witness_StepKeepsCallsLinked :
    TraceLinked Config.capability (State.reset.withFetchWord 32 0x21).trace (State.reset.withFetchWord 32 0x21).chain ∧
      ∃ t, step (State.reset.withFetchWord 32 0x21) = .next t := ⟨.nil, ⟨_, rfl⟩⟩

/-- A linked record that is not empty, ending in the `H` of a bound state. -/
theorem witness_TraceLinked_bound :
    TraceLinked Config.capability [.initState .sha1 (Config.capability.initState .sha1)]
      (some ⟨.sha1, Config.capability.initState .sha1⟩) := .initState [] none .sha1 .nil

end Sys2Proof.Tests
end

section
/-! SUPPORT. The proofs of the family 10_state: how every command moves the binding and `TOTAL` (spec R24, R27), and from
this the state machine of R32. -/

namespace Sys2Proof.Machine

/-! ### The binding and `TOTAL` after each kind of command -/

@[simp] theorem createWith_bound (cap : Capability) (a : Alg) (s : State) :
    (createWith cap a s).bound = some ⟨a, cap.initState a⟩ := rfl
@[simp] theorem createWith_total (cap : Capability) (a : Alg) (s : State) : (createWith cap a s).total = 0 := rfl
@[simp] theorem rejectUnbound_bound (i : Instr) (s : State) : (rejectUnbound i s).bound = s.bound := rfl
@[simp] theorem rejectUnbound_total (i : Instr) (s : State) : (rejectUnbound i s).total = s.total := rfl

@[simp] theorem createdAlg_create (a : Alg) : createdAlg (Instr.create a) = some a := by cases a <;> rfl

/-- Every reset of the context (R231) leaves the engine bound with `TOTAL = 0`. -/
theorem exec_contextReset_bound_total {i : Instr} {s t : State} (h : exec i s = .next t)
    (hi : (∃ a, i = Instr.create a) ∨ (∃ bw, i = .createBw bw) ∨ s.bound ≠ none ∧ (i = .reset ∨ i = .digest)) :
    t.bound ≠ none ∧ t.total = 0 := by
  obtain ⟨a, rfl⟩ | ⟨bw, rfl⟩ | ⟨hb, rfl | rfl⟩ := hi
  · rw [exec_created (createdAlg_create a)] at h
    cases h
    simp
  · rw [exec_created (a := select bw.toNat) rfl] at h
    cases h
    simp
  · obtain ⟨b, hb⟩ := Option.ne_none_iff_exists'.1 hb
    have ht : resetWith Config.capability s = t := Host.Outcome.next.inj h
    rw [← ht, resetWith_bound _ _ b hb]
    simp
  · obtain ⟨hn, -⟩ | ⟨b, -, -, rfl⟩ := digestWith_next h
    · exact absurd hn hb
    · simp

/-- STATUS and every command rejected UNBOUND leave the binding and `TOTAL` (R180, R208). -/
theorem exec_statusOrUnbound_keeps {i : Instr} {s t : State} (h : exec i s = .next t)
    (hi : i = .status ∨ s.bound = none ∧ ((∃ len payload, i = .update len payload) ∨ i = .reset ∨ i = .digest)) :
    t.bound = s.bound ∧ t.total = s.total := by
  obtain rfl | ⟨hb, ⟨len, payload, rfl⟩ | rfl | rfl⟩ := hi
  · cases h
    simp
  · obtain ⟨-, ⟨-, rfl⟩ | ⟨b, hb', -⟩⟩ := updateWith_next h
    · simp
    · simp [hb] at hb'
  · have ht : resetWith Config.capability s = t := Host.Outcome.next.inj h
    rw [← ht, resetWith_unbound _ _ hb]
    simp
  · obtain ⟨-, rfl⟩ | ⟨b, hb', -⟩ := digestWith_next h
    · simp
    · simp [hb] at hb'

/-- An UPDATE that a bound engine admits keeps it bound and counts its `len` payload bytes; `TOTAL` does not wrap, because
the length check keeps it within `LMAX` (R27, R127, R131). -/
theorem exec_update_counts {len : Half} {payload : List Byte} {s t : State} (h : exec (.update len payload) s = .next t)
    (hb : s.bound ≠ none) :
    payload.length = len.toNat ∧ t.bound ≠ none ∧ t.total.toNat = s.total.toNat + len.toNat := by
  obtain ⟨hl, ⟨hn, -⟩ | ⟨b, -, hmax, -, rfl⟩⟩ := updateWith_next h
  · exact absurd hn hb
  · exact ⟨hl, by simp, total_roundtrip hmax⟩

/-- After an UPDATE of a bound engine, which stays bound, `TOTAL` is 0 only if it was and no byte came. -/
theorem exec_update_total_eq_zero_iff {len : Half} {payload : List Byte} {s t : State}
    (h : exec (.update len payload) s = .next t) (hb : s.bound ≠ none) :
    t.bound ≠ none ∧ (t.total = 0 ↔ s.total = 0 ∧ len = 0) := by
  obtain ⟨-, hbt, ht⟩ := exec_update_counts h hb
  exact ⟨hbt, by bv_omega⟩

/-- Settles O45: each clause is the effect on `TOTAL` of one kind of command. -/
theorem totalCountsMessageBytes : Obligations.TotalCountsMessageBytes := by
  intro i s t h
  refine ⟨?_, fun hi => (exec_contextReset_bound_total h hi).2, fun hi => (exec_statusOrUnbound_keeps h hi).2,
    fun c cw => reject_total c cw s, alg_maxMessageBytes_lt⟩
  rintro len payload rfl hb
  obtain ⟨hl, -, ht⟩ := exec_update_counts h hb
  rw [ht, hl]

/-! ### The phase as a function of the binding and `TOTAL` (R32) -/

theorem enginePhase_congr {s t : State} (hb : t.bound = s.bound) (ht : t.total = s.total) :
    t.enginePhase = s.enginePhase := by
  unfold State.enginePhase State.phase
  rw [hb, ht]

theorem enginePhase_eq_unbound_iff (s : State) : s.enginePhase = .unbound ↔ s.bound = none := by
  cases hb : s.bound with
  | none => simp [State.enginePhase, hb]
  | some b => cases hp : s.phase <;> simp [State.enginePhase, hb, hp]

theorem enginePhase_eq_fresh_iff (s : State) : s.enginePhase = .fresh ↔ s.bound ≠ none ∧ s.total = 0 := by
  cases hb : s.bound <;> simp [State.enginePhase, State.phase, hb]

theorem enginePhase_eq_accumulating_iff (s : State) :
    s.enginePhase = .accumulating ↔ s.bound ≠ none ∧ s.total ≠ 0 := by
  cases hb : s.bound <;> simp [State.enginePhase, State.phase, hb]

/-- Where UPDATE leads from a bound state: Fresh stays Fresh exactly when no byte comes, and Accumulating stays. -/
theorem enginePhase_update {len : Half} {payload : List Byte} {s t : State}
    (h : exec (.update len payload) s = .next t) :
    (s.enginePhase = .fresh → len ≠ 0 → t.enginePhase = .accumulating) ∧
      (s.enginePhase = .fresh → len = 0 → t.enginePhase = .fresh) ∧
      (s.enginePhase = .accumulating → t.enginePhase = .accumulating) := by
  simp only [enginePhase_eq_fresh_iff, enginePhase_eq_accumulating_iff]
  refine ⟨fun ⟨hb, hs⟩ hlen => ?_, fun ⟨hb, hs⟩ hlen => ?_, fun ⟨hb, hs⟩ => ?_⟩
  all_goals obtain ⟨hbt, ht⟩ := exec_update_total_eq_zero_iff h hb
  · exact ⟨hbt, fun h0 => hlen (ht.1 h0).2⟩
  · exact ⟨hbt, ht.2 ⟨hs, hlen⟩⟩
  · exact ⟨hbt, fun h0 => hs (ht.1 h0).1⟩

/-- Settles O48: the phase follows the binding and `TOTAL`, so each clause is the effect of one kind of command on them. -/
theorem stateMachineOfTheEngine : Obligations.StateMachineOfTheEngine := by
  refine ⟨fun c cw s => enginePhase_congr (reject_bound c cw s) (reject_total c cw s), fun i s t h => ?_⟩
  refine ⟨?_, ?_, ?_, ?_, ?_⟩
  · exact fun hi => (enginePhase_eq_fresh_iff t).2 (exec_contextReset_bound_total h (hi.imp_right .inl))
  · intro hi
    obtain ⟨hb, ht⟩ := exec_statusOrUnbound_keeps h (.inl hi)
    exact enginePhase_congr hb ht
  · intro hs hi
    have hn := (enginePhase_eq_unbound_iff s).1 hs
    obtain ⟨hb, -⟩ := exec_statusOrUnbound_keeps h (.inr ⟨hn, hi.imp_right Or.symm⟩)
    exact (enginePhase_eq_unbound_iff t).2 (hb.trans hn)
  · intro hs hi
    have hb : s.bound ≠ none := mt (enginePhase_eq_unbound_iff s).2 hs
    exact (enginePhase_eq_fresh_iff t).2 (exec_contextReset_bound_total h (.inr (.inr ⟨hb, hi.symm⟩)))
  · rintro len payload rfl
    exact enginePhase_update h

end Sys2Proof.Machine
end

section
/-! SUPPORT. The proofs of the family 30_encoding: the words that decode to each command and the illegal ones (spec R75),
and what every command appends to the response stream (R79). -/

namespace Sys2Proof

/-! ### The legal words (R75) -/

/-- A word has given fields iff it is the word of these fields (R71). -/
theorem commandWord_eq_iff (imm : Half) (rsv : BitVec 8) (sub op : BitVec 4) (cw : Word) :
    commandWord imm rsv sub op = cw ↔ opField cw = op ∧ subField cw = sub ∧ rsvField cw = rsv ∧ immField cw = imm := by
  constructor
  · rintro rfl
    simp
  · rintro ⟨rfl, rfl, rfl, rfl⟩
    exact commandWord_fields cw

/-- The five CREATE words differ in the algorithm code alone (R73, R75). -/
theorem encodeWord_create (a : Alg) : encodeWord (Instr.create a) = commandWord 0 0 a.code 1 := by cases a <;> rfl

/-- The codes up to 4 are those of the algorithms, the others are reserved (R73). -/
theorem Alg.ofCode_isSome_iff : ∀ c : BitVec 4, (Alg.ofCode c).isSome = true ↔ c ≤ 4 := by decide

/-- The word of a command decodes to it with the payload that follows, which only UPDATE takes (R72, R77). -/
theorem decode_encodeWord (i : Instr) (payload : List Byte) (hp : ∀ len p, i = .update len p → p = payload) :
    decode (encodeWord i) payload = .command i := by
  cases i with
  | update len p =>
    obtain rfl := hp len p rfl
    simp [decode, encodeWord]
  | createBw bw => simp [decode, encodeWord]
  | createSha1 | createSha2_224 | createSha2_256 | createSha2_384 | createSha2_512 | digest | reset | status => rfl

/-- A word decodes to a command iff it is that command's word, with the payload given where the command is UPDATE. -/
theorem decode_eq_command_iff (cw : Word) (payload : List Byte) (i : Instr) :
    decode cw payload = .command i ↔ encodeWord i = cw ∧ ∀ len p, i = .update len p → p = payload := by
  constructor
  · intro h
    obtain ⟨hw, ⟨len, rfl⟩ | ⟨-, hi⟩⟩ := decode_command h
    · exact ⟨hw, fun _ _ hu => (Instr.update.inj hu).2.symm⟩
    · exact ⟨hw, fun len p hu => absurd hu (hi len p)⟩
  · rintro ⟨rfl, hp⟩
    exact decode_encodeWord i payload hp

/-- For a command other than UPDATE the payload plays no part. -/
theorem decode_eq_command_iff_word {i : Instr} (hi : ∀ len p, i ≠ .update len p) (cw : Word) (payload : List Byte) :
    decode cw payload = .command i ↔ encodeWord i = cw := by
  rw [decode_eq_command_iff]
  exact and_iff_left fun len p hu => absurd hu (hi len p)

theorem decode_eq_create_iff (cw : Word) (payload : List Byte) (a : Alg) :
    decode cw payload = .command (Instr.create a) ↔
      opField cw = 1 ∧ subField cw = a.code ∧ rsvField cw = 0 ∧ immField cw = 0 := by
  rw [decode_eq_command_iff_word (by cases a <;> simp [Instr.create]), encodeWord_create, commandWord_eq_iff]

theorem decode_eq_createBw_iff (cw : Word) (payload : List Byte) (bw : Half) :
    decode cw payload = .command (.createBw bw) ↔
      opField cw = 2 ∧ subField cw = 0 ∧ rsvField cw = 0 ∧ immField cw = bw := by
  rw [decode_eq_command_iff_word (by simp), encodeWord, commandWord_eq_iff]

theorem decode_eq_update_iff (cw : Word) (payload : List Byte) (len : Half) (p : List Byte) :
    decode cw payload = .command (.update len p) ↔
      opField cw = 3 ∧ subField cw = 0 ∧ rsvField cw = 0 ∧ immField cw = len ∧ p = payload := by
  have hp : (∀ l q, Instr.update len p = .update l q → q = payload) ↔ p = payload :=
    ⟨fun h => h len p rfl, fun h _ _ hu => (Instr.update.inj hu).2 ▸ h⟩
  rw [decode_eq_command_iff, hp, encodeWord, commandWord_eq_iff]
  simp only [and_assoc]

/-- A word is illegal iff it meets none of the six conditions: the branches of `decode` are the rows of the table, and the
first row finds an algorithm for every code it lets through. -/
theorem decode_eq_illegal_iff (cw : Word) (payload : List Byte) :
    decode cw payload = .illegal cw ↔
      ¬ (opField cw = 1 ∧ subField cw ≤ 4 ∧ rsvField cw = 0 ∧ immField cw = 0) ∧
      ¬ (opField cw = 2 ∧ subField cw = 0 ∧ rsvField cw = 0) ∧
      ¬ (opField cw = 3 ∧ subField cw = 0 ∧ rsvField cw = 0) ∧
      cw ≠ 0x00000004 ∧ cw ≠ 0x00000005 ∧ cw ≠ 0x00000006 := by
  unfold decode
  split_ifs with hcreate hcreateBw hupdate hdigest hreset hstatus
  · obtain ⟨a, ha⟩ := Option.isSome_iff_exists.1 ((Alg.ofCode_isSome_iff _).2 hcreate.2.1)
    exact iff_of_false (by simp [ha]) fun h => h.1 hcreate
  · simp [hcreateBw]
  · simp [hupdate]
  · simp [hdigest]
  · simp [hreset]
  · simp [hstatus]
  · exact iff_of_true rfl ⟨hcreate, hcreateBw, hupdate, hdigest, hreset, hstatus⟩

/-- Settles O2: a command's condition says that the word is the one it encodes to, and the illegal words are those that no
branch of `decode` takes. -/
theorem legalWordsAreTheListedOnes : Obligations.LegalWordsAreTheListedOnes := by
  intro cw payload
  refine ⟨decode_eq_create_iff cw payload, decode_eq_createBw_iff cw payload, decode_eq_update_iff cw payload, ?_, ?_, ?_,
    decode_eq_illegal_iff cw payload⟩
  · exact (decode_eq_command_iff_word (by simp) cw payload).trans eq_comm
  · exact (decode_eq_command_iff_word (by simp) cw payload).trans eq_comm
  · exact (decode_eq_command_iff_word (by simp) cw payload).trans eq_comm

end Sys2Proof

namespace Sys2Proof.Machine

/-! ### The responses (R79) -/

@[simp] theorem createWith_out (cap : Capability) (a : Alg) (s : State) : (createWith cap a s).out = s.out := rfl
@[simp] theorem rejectUnbound_out (i : Instr) (s : State) : (rejectUnbound i s).out = s.out := rfl

@[simp] theorem digestBytes_length (cap : Capability) (b : Binding) (s : State) :
    (digestBytes cap b s).length = b.alg.digestBytes := extract_length _ _ _

/-- The bytes a command that completes or is rejected appends to `OUT` (R79). -/
def response (i : Instr) (s : State) : List Byte :=
  match i with
  | .digest => s.bound.elim [] fun b => digestBytes Config.capability b s
  | .status => wordBytes (statusWord s)
  | _ => []

theorem response_digest_bound {s : State} {b : Binding} (hb : s.bound = some b) :
    response .digest s = digestBytes Config.capability b s := by
  simp [response, hb]

/-- Only STATUS, and DIGEST of a bound engine, respond. -/
theorem response_eq_nil {i : Instr} {s : State} (hs : i ≠ .status) (hd : i = .digest → s.bound = none) :
    response i s = [] := by
  cases i with
  | digest => simp [response, hd rfl]
  | status => exact absurd rfl hs
  | createSha1 | createSha2_224 | createSha2_256 | createSha2_384 | createSha2_512 | createBw | update | reset => rfl

/-- Every command that answers a next state has appended its response and nothing else. -/
theorem exec_out {i : Instr} {s t : State} (h : exec i s = .next t) : t.out = s.out ++ response i s := by
  obtain ⟨a, ha, rfl⟩ | ⟨hb, -, hs, rfl⟩ | ⟨b, -, rfl, rfl⟩ | ⟨b, len, payload, -, rfl, -, -, -, rfl⟩ |
    ⟨b, hb, rfl, -, rfl⟩ | ⟨rfl, rfl⟩ := exec_next h
  · have hs : i ≠ .status := by rintro rfl; cases ha
    have hd : i ≠ .digest := by rintro rfl; cases ha
    simp [response_eq_nil hs fun h => absurd h hd]
  · simp [response_eq_nil hs fun _ => hb]
  · simp [response]
  · simp [response]
  · simp [response_digest_bound hb]
  · simp [response]

/-- Settles O42: each clause is the response of one kind of command, and a rejected word has none. -/
theorem responsesAreExact : Obligations.ResponsesAreExact := by
  refine ⟨fun i s t h => ⟨?_, ?_, fun hs hd => ?_⟩, fun s t cw rest hf h => ?_⟩
  · rintro rfl b hb
    exact ⟨_, response_digest_bound hb ▸ exec_out h, rfl, digestBytes_length _ b s⟩
  · rintro rfl
    exact exec_out h
  · rw [exec_out h, response_eq_nil hs hd, List.append_nil]
  · obtain ⟨i, r, hc, -⟩ | ⟨v, r, -, rfl⟩ | ⟨hw, -⟩ := step_next h
    · cases hf.symm.trans hc
    · exact reject_out _ _ _
    · cases hf.symm.trans hw

end Sys2Proof.Machine
end

section
/-! SUPPORT. The proofs of the family 40_factory: the Strength Selector (spec R100) and the saturation of a strength into
the field's range (R74, R82). -/

namespace Sys2Proof.Machine

/-! ### The four cases of the Strength Selector (R100) -/

theorem select_of_gt_384 {bw : Nat} (h : 384 < bw) : select bw = .sha2_512 := if_pos h

theorem select_of_gt_256_of_le_384 {bw : Nat} (hl : 256 < bw) (hu : bw ≤ 384) : select bw = .sha2_384 := by
  rw [select, if_neg (by omega), if_pos hl]

theorem select_of_gt_224_of_le_256 {bw : Nat} (hl : 224 < bw) (hu : bw ≤ 256) : select bw = .sha2_256 := by
  rw [select, if_neg (by omega), if_neg (by omega), if_pos hl]

theorem select_of_le_224 {bw : Nat} (h : bw ≤ 224) : select bw = .sha2_224 := by
  rw [select, if_neg (by omega), if_neg (by omega), if_neg (by omega)]

/-- The code of the selected algorithm is 1 plus the number of thresholds the strength exceeds. -/
theorem select_code_eq_countP (bw : Nat) :
    (select bw).code.toNat = 1 + [224, 256, 384].countP (· < bw) := by
  obtain h | ⟨hl, hu⟩ | ⟨hl, hu⟩ | h :
      bw ≤ 224 ∨ (224 < bw ∧ bw ≤ 256) ∨ (256 < bw ∧ bw ≤ 384) ∨ 384 < bw := by omega
  · rw [select_of_le_224 h, List.countP_eq_zero.2 (by simp; omega)]
    rfl
  · have hn : ¬ 384 < bw := by omega
    simp [select_of_gt_224_of_le_256 hl hu, Alg.code, hl, hu.not_gt, hn]
  · have h224 : 224 < bw := by omega
    simp [select_of_gt_256_of_le_384 hl hu, Alg.code, h224, hl, hu.not_gt]
  · rw [select_of_gt_384 h, List.countP_eq_length.2 (by simp; omega)]
    rfl

/-- A strength never selects SHA1, whose code is 0. -/
theorem select_ne_sha1 (bw : Nat) : select bw ≠ .sha1 := by
  intro h
  have hc := select_code_eq_countP bw
  rw [h, show Alg.sha1.code.toNat = 0 from rfl] at hc
  omega

/-- A greater strength exceeds every threshold a lesser one exceeds. -/
theorem select_code_mono {v w : Nat} (h : v ≤ w) : (select v).code ≤ (select w).code := by
  rw [BitVec.le_def, select_code_eq_countP, select_code_eq_countP]
  refine Nat.add_le_add_left (List.countP_mono_left fun t _ ht => ?_) 1
  simp only [decide_eq_true_eq] at ht ⊢
  omega

/-! ### Saturation (R74, R82) -/

/-- A saturated strength is the nearest number of the field's range. -/
theorem saturateWidth_toNat (bw : Int) : (saturateWidth bw).toNat = min bw.toNat 65535 := by
  unfold saturateWidth
  split
  next hneg => simp [Int.toNat_of_nonpos hneg.le]
  next =>
    split
    next =>
      simp
      omega
    next =>
      simp
      omega

/-- Settles O13: the four cases, the code as a count of thresholds, and the two ends of the saturated range. -/
theorem strengthSelectorThresholds : Obligations.StrengthSelectorThresholds := by
  refine ⟨fun bw => ⟨select_of_gt_384, fun h => select_of_gt_256_of_le_384 h.1 h.2,
    fun h => select_of_gt_224_of_le_256 h.1 h.2, select_of_le_224⟩, select_ne_sha1, fun _ _ => select_code_mono,
    fun bw => ⟨fun h => ⟨select_of_gt_384 ?_, rfl⟩, fun h => ⟨select_of_le_224 ?_, rfl⟩⟩⟩
  · rw [saturateWidth_toNat]
    omega
  · rw [saturateWidth_toNat]
    omega

end Sys2Proof.Machine
end

section
/-! SUPPORT. The proofs of the family 41_streaming: `Absorb` as a fold over the blocks of the pending bytes and the input
(spec R121, R122), the padding and the extraction (R124, R125), and what a run of UPDATEs and a DIGEST leave (R129, R130,
R133, R134). -/

namespace Sys2Proof.Machine

/-! ### Blocks of a message (R122) -/

/-- The bytes after the last complete block: those that stay pending (R122). -/
def leftover (blockLen : Nat) (bytes : List Byte) : List Byte := bytes.drop (bytes.length / blockLen * blockLen)

theorem blocks_of_length_lt {n : Nat} {m : List Byte} (h : m.length < n) : blocks n m = [] := by
  simp [blocks, Nat.div_eq_of_lt h]

theorem leftover_of_length_lt {n : Nat} {m : List Byte} (h : m.length < n) : leftover n m = m := by
  simp [leftover, Nat.div_eq_of_lt h]

theorem length_leftover (n : Nat) (m : List Byte) : (leftover n m).length = m.length % n := by
  rw [leftover, List.length_drop, Nat.mod_eq_sub_div_mul]

theorem length_append_block_div {n : Nat} (hn : 0 < n) {blk : List Byte} (hb : blk.length = n) (m : List Byte) :
    (blk ++ m).length / n = m.length / n + 1 := by
  rw [List.length_append, hb, Nat.add_div_left _ hn]

/-- A block in front of a message is its first block. -/
theorem blocks_append_block {n : Nat} (hn : 0 < n) {blk : List Byte} (hb : blk.length = n) (m : List Byte) :
    blocks n (blk ++ m) = blk :: blocks n m := by
  have hdrop (k : Nat) : (blk ++ m).drop ((k + 1) * n) = m.drop (k * n) := by
    rw [Nat.succ_mul, Nat.add_comm, ← List.drop_drop, ← hb, List.drop_left]
  have hhead : ((blk ++ m).drop (0 * n)).take n = blk := by rw [Nat.zero_mul, List.drop_zero, ← hb, List.take_left]
  rw [blocks, length_append_block_div hn hb, List.range_succ_eq_map, List.map_cons, hhead, List.map_map]
  simp only [Function.comp_def, Nat.succ_eq_add_one, hdrop, blocks]

theorem leftover_append_block {n : Nat} (hn : 0 < n) {blk : List Byte} (hb : blk.length = n) (m : List Byte) :
    leftover n (blk ++ m) = leftover n m := by
  rw [leftover, length_append_block_div hn hb, Nat.succ_mul, Nat.add_comm, ← List.drop_drop, ← hb, List.drop_left,
    leftover]

@[simp] theorem blocks_length (n : Nat) (m : List Byte) : (blocks n m).length = m.length / n := by simp [blocks]

theorem length_of_mem_blocks {n : Nat} {m blk : List Byte} (h : blk ∈ blocks n m) : blk.length = n := by
  simp only [blocks, List.mem_map, List.mem_range] at h
  obtain ⟨k, hk, rfl⟩ := h
  have hend : (k + 1) * n ≤ m.length := (Nat.mul_le_mul_right n hk).trans (Nat.div_mul_le_self _ _)
  rw [List.length_take, List.length_drop]
  rw [Nat.succ_mul] at hend
  omega

/-! ### `Absorb` as a fold (R121, R122) -/

/-- The `Compress` calls made on blocks one after another, each from the state the one before returned (R162). -/
def compressCalls (cap : Capability) (f : Family) : f.Chain → List (List Byte) → List CapCall
  | _, [] => []
  | h, blk :: blks => .compress f h blk (cap.compress f h blk) :: compressCalls cap f (cap.compress f h blk) blks

theorem map_blockOf_compressCalls (cap : Capability) (f : Family) (blks : List (List Byte)) :
    ∀ h, (compressCalls cap f h blks).map blockOf = blks.map some := by
  induction blks with
  | nil => exact fun _ => rfl
  | cons blk blks ih => exact fun h => by simp [compressCalls, blockOf, ih]

@[simp] theorem compressCalls_length (cap : Capability) (f : Family) (h : f.Chain) (blks : List (List Byte)) :
    (compressCalls cap f h blks).length = blks.length := by
  simpa using congrArg List.length (map_blockOf_compressCalls cap f blks h)

/-- Every call on the blocks of a message is a `Compress` of a full block. -/
theorem blockOf_of_mem_compressCalls {cap : Capability} {f : Family} {h : f.Chain} {n : Nat} {m : List Byte} {c : CapCall}
    (hc : c ∈ compressCalls cap f h (blocks n m)) : ∃ block, blockOf c = some block ∧ block.length = n := by
  have hmem : blockOf c ∈ (compressCalls cap f h (blocks n m)).map blockOf := List.mem_map_of_mem hc
  rw [map_blockOf_compressCalls, List.mem_map] at hmem
  obtain ⟨blk, hblk, hc⟩ := hmem
  exact ⟨blk, hc.symm, length_of_mem_blocks hblk⟩

variable {f : Family}

/-- The pending bytes `buf[0..BP)` (R25, R26). -/
def pending (w : Work f) : List Byte := memRead w.buf 0 w.bp

@[simp] theorem pending_length (w : Work f) : (pending w).length = w.bp := memRead_length _ _ _

theorem pending_of_bp_eq_zero {w : Work f} (h : w.bp = 0) : pending w = [] :=
  List.length_eq_zero_iff.1 ((pending_length w).trans h)

theorem getElem?_pending (w : Work f) {o : Nat} (ho : o < w.bp) : (pending w)[o]? = some (w.buf.byteAt o) := by
  simp [pending, memRead, ho]

/-- A byte written at offset `BP` is pending after those that were. -/
theorem memRead_writeRun_one (w : Work f) (b : Byte) :
    memRead (writeRun w [b]).buf 0 (w.bp + 1) = pending w ++ [b] := by
  have hkeep : ∀ o ∈ List.range' 0 w.bp, (writeRun w [b]).buf.byteAt o = w.buf.byteAt o := fun o ho => by
    rw [List.mem_range'_1] at ho
    exact byteAt_of_get? (by rw [writeRun_one_get?, if_neg (by omega)])
  have hlast : (writeRun w [b]).buf.byteAt w.bp = b := byteAt_eq (by rw [writeRun_one_get?, if_pos rfl])
  rw [memRead, List.range'_1_concat, List.map_append, List.map_congr_left hkeep, Nat.zero_add, List.map_singleton, hlast,
    pending, memRead]

/-- R121: `Absorb` of a concatenation is one `Absorb` after the other. -/
theorem absorb_append (cap : Capability) {w : Work f} (hw : w.bp < f.blockBytes) (x y : List Byte) :
    absorb cap w (x ++ y) = absorb cap (absorb cap w x) y := by
  rw [absorb_eq_foldl cap w _ hw, List.foldl_append, ← absorb_eq_foldl cap w x hw,
    absorb_eq_foldl cap _ y (absorb_bp_lt cap w x hw)]

/-- R122, from any `BP`: with `m` the pending bytes and then the input, `Absorb` folds `Compress` over the blocks of `m`,
leaves the bytes after them pending, and records exactly the calls of this fold. -/
theorem absorb_closedForm (cap : Capability) (s : List Byte) : ∀ (w : Work f), w.bp < f.blockBytes →
    (absorb cap w s).h = compressAll cap f w.h (blocks f.blockBytes (pending w ++ s)) ∧
    pending (absorb cap w s) = leftover f.blockBytes (pending w ++ s) ∧
    (absorb cap w s).trace = w.trace ++ compressCalls cap f w.h (blocks f.blockBytes (pending w ++ s)) := by
  induction s with
  | nil =>
    intro w hw
    have hlt : (pending w ++ []).length < f.blockBytes := by simpa using hw
    rw [blocks_of_length_lt hlt, leftover_of_length_lt hlt]
    simp [compressAll, compressCalls]
  | cons b s ih =>
    intro w hw
    have hnext := absorbByte_bp_lt cap w b hw
    rw [← List.singleton_append, absorb_append cap hw, ← List.append_assoc, ← memRead_writeRun_one w b,
      absorb_eq_foldl cap w [b] hw, List.foldl_cons, List.foldl_nil]
    obtain ⟨hh, hp, ht⟩ := ih _ hnext
    rw [hh, hp, ht]
    obtain ⟨-, hbyte⟩ | ⟨hfull, hbyte⟩ := absorbByte_cases cap w b hw
    · rw [hbyte]
      exact ⟨rfl, rfl, rfl⟩
    · rw [hbyte, pending_of_bp_eq_zero (compressFull_bp cap _), List.nil_append, hfull]
      have hlen : (memRead (writeRun w [b]).buf 0 f.blockBytes).length = f.blockBytes := memRead_length _ _ _
      rw [blocks_append_block (Family.blockBytes_pos f) hlen, leftover_append_block (Family.blockBytes_pos f) hlen]
      exact ⟨rfl, rfl, List.append_assoc _ _ _⟩

/-- `BP` counts the absorbed bytes modulo `B` (R120). -/
theorem absorb_bp_eq_mod (cap : Capability) {w : Work f} (hw : w.bp < f.blockBytes) (s : List Byte) :
    (absorb cap w s).bp = (w.bp + s.length) % f.blockBytes := by
  obtain ⟨-, hp, -⟩ := absorb_closedForm cap s w hw
  rw [← pending_length, hp, length_leftover, List.length_append, pending_length]

/-- Settles O18: the loop absorbs byte by byte, so where the input is cut does not matter. -/
theorem absorbChunkingIsInvisible : Obligations.AbsorbChunkingIsInvisible :=
  fun cap _ _ x y hw => (absorb_append cap hw x y).symm

/-! ### The padding (R123, R124) -/

@[simp] theorem pad_length (messageLen blockLen : Nat) :
    (pad messageLen blockLen).length = 1 + padZeros messageLen blockLen + blockLen / 8 := by
  simp only [pad, List.length_cons, List.length_append, List.length_replicate, beBytes_length]
  omega

theorem padZeros_lt (messageLen : Nat) {blockLen : Nat} (h : 0 < blockLen) : padZeros messageLen blockLen < blockLen :=
  Nat.mod_lt _ h

/-- The padding aligns the message to the block (R124). -/
theorem add_pad_length_mod (messageLen : Nat) {blockLen : Nat} (h : blockLen = 64 ∨ blockLen = 128) :
    (messageLen + (pad messageLen blockLen).length) % blockLen = 0 := by
  rw [pad_length, padZeros]
  obtain rfl | rfl := h <;> omega

/-- No smaller count of zero bytes aligns (R124). -/
theorem padZeros_le_of_aligned {messageLen blockLen k : Nat} (h : blockLen = 64 ∨ blockLen = 128)
    (hk : (messageLen + (1 + k + blockLen / 8)) % blockLen = 0) : padZeros messageLen blockLen ≤ k := by
  rw [padZeros]
  obtain rfl | rfl := h <;> omega

theorem padZeros_mod (messageLen blockLen : Nat) :
    padZeros messageLen blockLen = padZeros (messageLen % blockLen) blockLen := by
  simp [padZeros, Nat.add_assoc]

theorem bitLength_of_fits {messageLen fieldLen : Nat} (h : 8 * messageLen < 2 ^ (8 * fieldLen)) :
    bitLength messageLen fieldLen = 8 * messageLen := if_pos h

/-- Settles O23: each clause is arithmetic on `padZeros`, the remainder that aligns. -/
theorem paddingProperties : Obligations.PaddingProperties := by
  intro messageLen blockLen h
  have hk : padZeros messageLen blockLen < blockLen := padZeros_lt messageLen (by omega)
  refine ⟨pad_length _ _, ?_, ?_, add_pad_length_mod messageLen h, fun k => padZeros_le_of_aligned h,
    padZeros_mod messageLen blockLen, fun hfit => ?_⟩
  · rw [pad_length]
    omega
  · rw [pad_length]
    omega
  · rw [pad, bitLength_of_fits hfit, ← padZeros_mod]

/-! ### The extraction (R125) -/

theorem beBytes_getElem? {n i : Nat} (v : Nat) (hi : i < n) :
    (beBytes n v)[i]? = some (BitVec.ofNat 8 (v >>> (8 * (n - 1 - i)))) := by
  simp [beBytes, hi]

/-- Item `i` of equally long pieces put together is item `i % k` of piece `i / k`. -/
theorem getElem?_flatMap_of_length_eq {α β : Type} {g : α → List β} {k : Nat} (hk : 0 < k)
    (hg : ∀ x, (g x).length = k) (l : List α) :
    ∀ i, (l.flatMap g)[i]? = l[i / k]?.bind fun x => (g x)[i % k]? := by
  induction l with
  | nil => simp
  | cons x l ih =>
    intro i
    rw [List.flatMap_cons]
    by_cases hi : i < k
    · rw [List.getElem?_append_left (by rwa [hg]), Nat.div_eq_of_lt hi, Nat.mod_eq_of_lt hi]
      rfl
    · rw [List.getElem?_append_right (by rw [hg]; omega), hg, ih, Nat.div_eq_sub_div hk (not_lt.1 hi),
        List.getElem?_cons_succ, ← Nat.mod_eq_sub_mod (not_lt.1 hi)]

theorem Family.wordBytes_pos (f : Family) : 0 < f.wordBits / 8 := by cases f <;> decide

/-- `stateByte` with the number `k` of bytes in a word a variable, so that it can be 4 or 8 (R125). -/
theorem stateByte_eq {k : Nat} (hk : f.wordBits / 8 = k) (h : f.Chain) (i : Nat) :
    stateByte f h i = BitVec.ofNat 8 ((h.toList.getD (i / k) 0).toNat >>> ((k - 1 - i % k) * 8)) := by
  subst hk
  simp [stateByte, List.getD_eq_getElem?_getD]

/-- `Extract` is a prefix of the words' big-endian encodings (R125). -/
theorem extract_eq_take (h : f.Chain) {n : Nat} (hn : n ≤ f.wordCount * (f.wordBits / 8)) :
    extract f h n = (h.toList.flatMap fun w => beBytes (f.wordBits / 8) w.toNat).take n := by
  refine List.ext_getElem? fun i => ?_
  by_cases hi : i < n
  · have hword : i / (f.wordBits / 8) < f.wordCount := Nat.div_lt_of_lt_mul (by rw [Nat.mul_comm]; omega)
    rw [extract_get? f h hi, List.getElem?_take_of_lt hi,
      getElem?_flatMap_of_length_eq (Family.wordBytes_pos f) fun w => beBytes_length _ _, stateByte_eq rfl]
    simp [hword, beBytes_getElem? _ (Nat.mod_lt i (Family.wordBytes_pos f)), Nat.mul_comm]
  · rw [List.getElem?_eq_none (by simpa using hi), List.getElem?_eq_none]
    rw [List.length_take]
    omega

/-- Settles O24: the whole extraction is a prefix of the encodings, and each byte is `stateByte` with words of 4 or 8
bytes. -/
theorem extractIsBigEndian : Obligations.ExtractIsBigEndian := by
  refine ⟨fun f h n hn => ⟨extract_eq_take h hn, fun hw i hi => ?_, fun hw i hi => ?_⟩, fun a => ?_, by decide⟩
  · rw [extract_get? f h hi, stateByte_eq (k := 4) (by rw [hw]), Nat.shiftRight_eq_div_pow i 2,
      Nat.and_two_pow_sub_one_eq_mod i 2]
  · rw [extract_get? f h hi, stateByte_eq (k := 8) (by rw [hw]), Nat.shiftRight_eq_div_pow i 3,
      Nat.and_two_pow_sub_one_eq_mod i 3]
  · cases a <;> decide

/-! ### A run of UPDATEs (R127, R133) -/

/-- A state of an engine with algorithm `a` after `n` UPDATEs of `len` bytes in all whose `Absorb`s have left `w`: it is
written back, the bytes are counted, and `pc` has moved on by `n` (R127). -/
def State.putUpdates (s : State) (a : Alg) (w : Work a.fam) (n len : Nat) : State :=
  { countBytes len (s.putWork a w) with pc := s.pc + n }

section
variable (s : State) {a : Alg} (w : Work a.fam) (n len : Nat)

@[simp] theorem putUpdates_bound : (s.putUpdates a w n len).bound = some ⟨a, w.h⟩ := rfl
@[simp] theorem putUpdates_buf : (s.putUpdates a w n len).buf = w.buf := rfl
@[simp] theorem putUpdates_bp : (s.putUpdates a w n len).bp = BitVec.ofNat 7 w.bp := rfl
@[simp] theorem putUpdates_total : (s.putUpdates a w n len).total = BitVec.ofNat 128 (s.total.toNat + len) := rfl
@[simp] theorem putUpdates_out : (s.putUpdates a w n len).out = s.out := rfl
@[simp] theorem putUpdates_trace : (s.putUpdates a w n len).trace = w.trace := rfl

end

/-- What is written back is what the next `Absorb` works on. -/
theorem putUpdates_work (s : State) {a : Alg} {w : Work a.fam} (hw : w.bp < a.blockBytes) (n len : Nat) :
    (s.putUpdates a w n len).work ⟨a, w.h⟩ = w := by
  simp only [State.work, putUpdates_buf, putUpdates_bp, putUpdates_trace, bp_roundtrip hw]

theorem putUpdates_putUpdates {s : State} {a : Alg} {len : Nat} (hmax : s.total.toNat + len ≤ a.maxMessageBytes)
    (w w' : Work a.fam) (m n len' : Nat) :
    (s.putUpdates a w m len).putUpdates a w' n len' = s.putUpdates a w' (m + n) (len + len') := by
  have htotal := total_roundtrip hmax
  simp only [State.putUpdates, countBytes, State.putWork, htotal, Nat.add_assoc]

/-- Nothing absorbed and no UPDATE: the state itself. -/
theorem putUpdates_zero {s : State} {b : Binding} (hb : s.bound = some b) : s.putUpdates b.alg (s.work b) 0 0 = s := by
  obtain ⟨bound, buf, bp, total, err, ecause, fault, out, trace, pc, port⟩ := s
  obtain rfl : bound = some b := hb
  simp [State.putUpdates, countBytes, State.putWork, State.work]

/-- An UPDATE within the limit, its `len` computed from its payload, writes back what `Absorb` of the payload leaves (R127). -/
theorem exec_updateCommand {b : Binding} {s : State} {c : List Byte} (hb : s.bound = some b)
    (hbp : s.bp.toNat < b.alg.blockBytes) (hc : c.length ≤ 65535)
    (hmax : s.total.toNat + c.length ≤ b.alg.maxMessageBytes) :
    exec (updateCommand c) s =
      .next (s.putUpdates b.alg (absorb Config.capability (s.work b) c) 1 c.length) := by
  have hlen : (BitVec.ofNat 16 c.length).toNat = c.length := by
    rw [BitVec.toNat_ofNat, Nat.mod_eq_of_lt (by omega)]
  have h := updateWith_bound Config.capability (BitVec.ofNat 16 c.length) c s b hlen.symm hb (by rwa [hlen]) hbp
  rw [hlen] at h
  exact h

theorem execAll_cons {i : Instr} {s t : State} (h : exec i s = .next t) (is : List Instr) :
    execAll (i :: is) s = execAll is t := by
  simp only [execAll, h]

theorem execAll_append {is : List Instr} : ∀ {s t : State}, execAll is s = .next t → ∀ js : List Instr,
    execAll (is ++ js) s = execAll js t := by
  induction is with
  | nil =>
    intro s t h js
    cases h
    rfl
  | cons i is ih =>
    intro s t h js
    rw [execAll] at h
    split at h
    · next u hu => exact (execAll_cons hu _).trans (ih h js)
    · cases h
    · cases h

/-- UPDATEs within the limit complete, and leave what the concatenation of their payloads determines (R127, R133). -/
theorem execAll_updateCommands (chunks : List (List Byte)) : ∀ {b : Binding} {s : State}, s.bound = some b →
    s.bp.toNat < b.alg.blockBytes → (∀ c ∈ chunks, c.length ≤ 65535) →
    s.total.toNat + chunks.flatten.length ≤ b.alg.maxMessageBytes →
    execAll (chunks.map updateCommand) s =
      .next (s.putUpdates b.alg (absorb Config.capability (s.work b) chunks.flatten) chunks.length
        chunks.flatten.length) := by
  induction chunks with
  | nil =>
    intro b s hb _ _ _
    exact congrArg _ (putUpdates_zero hb).symm
  | cons c cs ih =>
    intro b s hb hbp hlen hmax
    rw [List.flatten_cons, List.length_append] at hmax ⊢
    have hmaxc : s.total.toNat + c.length ≤ b.alg.maxMessageBytes := by omega
    have hbp' := absorb_bp_lt Config.capability (s.work b) c hbp
    have hfirst := exec_updateCommand hb hbp (hlen c List.mem_cons_self) hmaxc
    have hrest := ih (putUpdates_bound s (absorb Config.capability (s.work b) c) 1 c.length)
      (by rw [putUpdates_bp, bp_roundtrip hbp']; exact hbp') (fun d hd => hlen d (List.mem_cons_of_mem c hd))
      (by rw [putUpdates_total, total_roundtrip hmaxc, Nat.add_assoc]; exact hmax)
    rw [List.map_cons, execAll_cons hfirst, hrest, putUpdates_work s hbp', putUpdates_putUpdates hmaxc,
      ← absorb_append _ hbp, List.length_cons, Nat.add_comm 1]

/-- Where DIGEST of a bound engine completes, it appends the digest bytes and nothing else (R128). -/
theorem exec_digest_out {s : State} {b : Binding} (hb : s.bound = some b) (hbp : s.bp.toNat < b.alg.blockBytes) :
    ∃ t, exec .digest s = .next t ∧ t.out = s.out ++ digestBytes Config.capability b s :=
  ⟨_, digestWith_bound Config.capability s b hb hbp, rfl⟩

/-- After UPDATEs, DIGEST emits the extraction after absorbing the padding of all the bytes counted (R128). -/
theorem exec_digest_putUpdates (s : State) {a : Alg} {w : Work a.fam} (hw : w.bp < a.blockBytes) (n : Nat) {len : Nat}
    (hmax : s.total.toNat + len ≤ a.maxMessageBytes) :
    ∃ t, exec .digest (s.putUpdates a w n len) = .next t ∧
      t.out = s.out ++ extract a.fam
        (absorb Config.capability w (pad (s.total.toNat + len) a.blockBytes)).h a.digestBytes := by
  obtain ⟨t, ht, hout⟩ := exec_digest_out (putUpdates_bound s w n len)
    (by rw [putUpdates_bp, bp_roundtrip hw]; exact hw)
  refine ⟨t, ht, ?_⟩
  rw [hout, digestBytes, putUpdates_work s hw, putUpdates_total, total_roundtrip hmax, putUpdates_out]

/-- Settles O22: however the bytes are cut, the UPDATEs write back what one `Absorb` of them all leaves. -/
theorem splittingAnUpdateIsInvisible : Obligations.SplittingAnUpdateIsInvisible := by
  intro s b chunks hb hbp hlen hmax
  have hchunk : ∀ c ∈ chunks, c.length ≤ 65535 := fun c hc =>
    (List.sublist_flatten_of_mem hc).length_le.trans hlen
  have hw := absorb_bp_lt Config.capability (s.work b) chunks.flatten hbp
  obtain ⟨v, hv, hvout⟩ := exec_digest_putUpdates s hw chunks.length hmax
  obtain ⟨u, hu, huout⟩ := exec_digest_putUpdates s hw 1 hmax
  exact ⟨_, _, execAll_updateCommands chunks hb hbp hchunk hmax, exec_updateCommand hb hbp hlen hmax,
    rfl, rfl, rfl, rfl, rfl, rfl, v, u, hv, hu, hvout.trans huout.symm⟩

/-! ### The calls of DIGEST (R129) -/

theorem alg_blockBytes_eq (a : Alg) : a.blockBytes = 64 ∨ a.blockBytes = 128 := by cases a <;> decide

theorem alg_lengthFieldBytes_eq (a : Alg) : a.lengthFieldBytes = a.blockBytes / 8 := by cases a <;> rfl

/-- The pending bytes and the padding are one block where the `0x80` and the length field fit after the pending bytes, and
two blocks otherwise (R129). -/
theorem pending_pad_blocks {messageLen blockLen p : Nat} (h : blockLen = 64 ∨ blockLen = 128)
    (hp : p = messageLen % blockLen) :
    (p + (pad messageLen blockLen).length) % blockLen = 0 ∧
    (p + blockLen / 8 + 1 ≤ blockLen → (p + (pad messageLen blockLen).length) / blockLen = 1) ∧
    (blockLen < p + blockLen / 8 + 1 → (p + (pad messageLen blockLen).length) / blockLen = 2) := by
  have halign := add_pad_length_mod messageLen h
  have hk := padZeros_lt messageLen (blockLen := blockLen) (by omega)
  rw [pad_length] at halign ⊢
  obtain rfl | rfl := h
  · omega
  · omega

/-- Settles O26: the calls are those of the fold over the blocks of the pending bytes and the padding. -/
theorem digestMakesOneOrTwoCalls : Obligations.DigestMakesOneOrTwoCalls := by
  intro s b hb hmod
  have hbp : s.bp.toNat < b.alg.blockBytes := hmod ▸ Nat.mod_lt _ (Family.blockBytes_pos b.alg.fam)
  obtain ⟨halign, hone, htwo⟩ := pending_pad_blocks (alg_blockBytes_eq b.alg) hmod
  obtain ⟨-, -, htrace⟩ := absorb_closedForm Config.capability (pad s.total.toNat b.alg.blockBytes) (s.work b) hbp
  have hcount : (compressCalls Config.capability b.alg.fam (s.work b).h (blocks b.alg.fam.blockBytes
      (pending (s.work b) ++ pad s.total.toNat b.alg.blockBytes))).length =
      (s.bp.toNat + (pad s.total.toNat b.alg.blockBytes).length) / b.alg.blockBytes := by
    rw [compressCalls_length, blocks_length, List.length_append, pending_length]
    rfl
  refine ⟨_, (absorb_bp_eq_mod _ hbp _).trans halign,
    ⟨_, digestWith_bound Config.capability s b hb hbp, ?_⟩, hcount, fun c hc => blockOf_of_mem_compressCalls hc, ?_, ?_⟩
  · rw [advance_trace, emit_trace, resetContext_trace, absorb_trace, htrace]
    rfl
  · rw [hcount, alg_lengthFieldBytes_eq]
    exact hone
  · rw [hcount, alg_lengthFieldBytes_eq]
    exact htwo

/-! ### From a fresh context (R122, R130, R134) -/

/-- The Engine Context is the one that a reset of the context for `a` leaves (R231). -/
def State.FreshFor (s : State) (a : Alg) : Prop := SameContext s (resetContext Config.capability a s)

theorem freshFor_createWith (a : Alg) (s : State) : (createWith Config.capability a s).FreshFor a :=
  ⟨rfl, rfl, rfl, rfl⟩

/-- A fresh context depends on the algorithm alone (R130). -/
theorem State.FreshFor.sameContext {s t : State} {a : Alg} (hs : s.FreshFor a) (ht : t.FreshFor a) : SameContext s t :=
  ⟨hs.bound.trans ht.bound.symm, hs.buf.trans ht.buf.symm, hs.bp.trans ht.bp.symm, hs.total.trans ht.total.symm⟩

/-- DIGEST of a bound engine leaves a fresh context and the error record (R128, R130). -/
theorem exec_digest_freshFor {s t : State} {b : Binding} (hb : s.bound = some b) (h : exec .digest s = .next t) :
    t.FreshFor b.alg ∧ t.err = s.err ∧ t.ecause = s.ecause := by
  obtain ⟨hn, -⟩ | ⟨b', hb', -, rfl⟩ := digestWith_next h
  · cases hb.symm.trans hn
  · obtain rfl := Option.some.inj (hb.symm.trans hb')
    exact ⟨⟨rfl, rfl, rfl, rfl⟩, rfl, rfl⟩

/-- CREATE, CREATE_BW, and RESET or DIGEST of a bound engine leave a fresh context (R231). -/
theorem exec_contextReset_freshFor {i : Instr} {s t : State} (h : exec i s = .next t)
    (hi : (∃ a, i = Instr.create a) ∨ (∃ bw, i = .createBw bw) ∨ s.bound ≠ none ∧ (i = .reset ∨ i = .digest)) :
    ∃ a, t.FreshFor a := by
  obtain ⟨a, rfl⟩ | ⟨bw, rfl⟩ | ⟨hb, rfl | rfl⟩ := hi
  · rw [exec_created (createdAlg_create a)] at h
    cases h
    exact ⟨a, freshFor_createWith a s⟩
  · rw [exec_created (a := select bw.toNat) rfl] at h
    cases h
    exact ⟨_, freshFor_createWith _ s⟩
  · obtain ⟨b, hb⟩ := Option.ne_none_iff_exists'.1 hb
    have ht : resetWith Config.capability s = t := Host.Outcome.next.inj h
    rw [← ht, resetWith_bound _ _ b hb]
    exact ⟨b.alg, freshFor_createWith b.alg s⟩
  · obtain ⟨b, hb⟩ := Option.ne_none_iff_exists'.1 hb
    exact ⟨b.alg, (exec_digest_freshFor hb h).1⟩

/-- R122 from `BP = 0`: nothing that was in the buffer reaches the fold, the pending bytes or the calls. -/
theorem absorb_closedForm_of_bp_eq_zero (cap : Capability) {w : Work f} (hw : w.bp = 0) (s : List Byte) :
    (absorb cap w s).h = compressAll cap f w.h (blocks f.blockBytes s) ∧
    pending (absorb cap w s) = leftover f.blockBytes s ∧
    (absorb cap w s).trace = w.trace ++ compressCalls cap f w.h (blocks f.blockBytes s) := by
  have h := absorb_closedForm cap s w (hw ▸ Family.blockBytes_pos f)
  rwa [pending_of_bp_eq_zero hw, List.nil_append] at h

/-- Where the pending bytes are written, `Absorb` leaves its pending bytes written. -/
theorem absorb_pending_written (cap : Capability) {w : Work f} (hw : w.bp < f.blockBytes)
    (h : ∀ o < w.bp, (w.buf.get? o).isSome = true) (s : List Byte) :
    ∀ o < (absorb cap w s).bp, ((absorb cap w s).buf.get? o).isSome = true := by
  refine absorb_induction cap (P := fun w => ∀ o < w.bp, (w.buf.get? o).isSome = true) (fun w b hw h o ho => ?_) s w hw h
  have hbp : (absorbByte cap w b).bp ≤ w.bp + 1 := absorbByte_bp cap w b hw ▸ Nat.mod_le _ _
  rw [absorbByte_buf, Memory.get?_set]
  split
  · rfl
  · exact h o (by omega)

/-- From `BP = 0`, the pending bytes in the buffer are the last bytes of the input (R122). -/
theorem get?_absorb_of_bp_eq_zero (cap : Capability) {w : Work f} (hw : w.bp = 0) (s : List Byte) {o : Nat}
    (ho : o < (absorb cap w s).bp) :
    (absorb cap w s).buf.get? o = s[s.length / f.blockBytes * f.blockBytes + o]? := by
  obtain ⟨-, hpending, -⟩ := absorb_closedForm_of_bp_eq_zero cap hw s
  have hwritten := absorb_pending_written cap (hw ▸ Family.blockBytes_pos f) (fun o ho => by omega) s o ho
  obtain ⟨byte, hbyte⟩ := Option.isSome_iff_exists.1 hwritten
  rw [hbyte, ← List.getElem?_drop, ← leftover, ← hpending, getElem?_pending _ ho, byteAt_eq hbyte]

/-- What `Absorb` works on in a fresh context for `a`. -/
def State.freshWork (t : State) (a : Alg) : Work a.fam := t.work ⟨a, Config.capability.initState a⟩

section
variable {t : State} {a : Alg} (hf : t.FreshFor a)
include hf

theorem State.FreshFor.bp_toNat : t.bp.toNat = 0 := by rw [hf.bp]; rfl

theorem State.FreshFor.freshWork_bp : (t.freshWork a).bp = 0 := hf.bp_toNat

theorem State.FreshFor.freshWork_bp_lt : (t.freshWork a).bp < a.blockBytes :=
  hf.freshWork_bp ▸ Family.blockBytes_pos a.fam

theorem State.FreshFor.total_toNat : t.total.toNat = 0 := by rw [hf.total]; rfl

theorem State.FreshFor.alg : t.alg = some a := by rw [State.alg, hf.bound]; rfl

/-- On a fresh context the UPDATEs of a message within the limit complete (R127). -/
theorem execAll_updateCommands_of_freshFor {chunks : List (List Byte)} (hlen : ∀ c ∈ chunks, c.length ≤ 65535)
    (hmax : chunks.flatten.length ≤ a.maxMessageBytes) :
    execAll (chunks.map updateCommand) t =
      .next (t.putUpdates a (absorb Config.capability (t.freshWork a) chunks.flatten)
        chunks.length chunks.flatten.length) :=
  execAll_updateCommands chunks hf.bound hf.freshWork_bp_lt hlen
    (by rw [hf.total_toNat, Nat.zero_add]; exact hmax)

/-- A DIGEST after the UPDATEs of a message on a fresh context emits the digest of the message: with the padding the
message is absorbed whole, from `BP = 0` (R134). -/
theorem exec_digest_of_freshFor {message : List Byte} (hmax : message.length ≤ a.maxMessageBytes) (n : Nat) :
    ∃ v, exec .digest (t.putUpdates a (absorb Config.capability (t.freshWork a) message) n
        message.length) = .next v ∧
      v.out = t.out ++ digestOf Config.capability a message := by
  obtain ⟨v, hv, hout⟩ := exec_digest_putUpdates t (len := message.length)
    (absorb_bp_lt Config.capability _ message hf.freshWork_bp_lt) n (by rwa [hf.total_toNat, Nat.zero_add])
  obtain ⟨hh, -, -⟩ := absorb_closedForm_of_bp_eq_zero Config.capability hf.freshWork_bp
    (message ++ pad message.length a.blockBytes)
  refine ⟨v, hv, ?_⟩
  rw [hout, hf.total_toNat, Nat.zero_add, ← absorb_append _ hf.freshWork_bp_lt, hh]
  rfl

/-- UPDATEs and a DIGEST on a fresh context emit the digest of the message (R130, R134). -/
theorem execAll_updates_digest_of_freshFor {chunks : List (List Byte)} (hlen : ∀ c ∈ chunks, c.length ≤ 65535)
    (hmax : chunks.flatten.length ≤ a.maxMessageBytes) :
    ∃ v, execAll (chunks.map updateCommand ++ [.digest]) t = .next v ∧
      v.out = t.out ++ digestOf Config.capability a chunks.flatten := by
  obtain ⟨v, hv, hout⟩ := exec_digest_of_freshFor hf hmax chunks.length
  refine ⟨v, ?_, hout⟩
  rw [execAll_append (execAll_updateCommands_of_freshFor hf hlen hmax), execAll_cons hv]
  rfl

end

/-- Settles O29: CREATE leaves a fresh context, from which UPDATEs and a DIGEST emit the digest. -/
theorem digestIsTheMerkleDamgardFunction : Obligations.DigestIsTheMerkleDamgardFunction := by
  intro a chunks s hlen hmax
  rw [execAll_cons (exec_created (createdAlg_create a) s)]
  exact execAll_updates_digest_of_freshFor (freshFor_createWith a s) hlen hmax

/-- Settles O27: DIGEST leaves a fresh context, as CREATE does. -/
theorem digestLeavesAFreshContext : Obligations.DigestLeavesAFreshContext := by
  intro s t b hb h
  obtain ⟨hf, herr, hecause⟩ := exec_digest_freshFor hb h
  refine ⟨fun u v hv => ?_, herr, hecause, fun chunks => execAll_updates_digest_of_freshFor hf⟩
  cases (exec_created (createdAlg_create b.alg) u).symm.trans hv
  exact hf.sameContext (freshFor_createWith b.alg u)

/-- Settles O30: the closed form of `Absorb` from the fresh context that every reset leaves. -/
theorem stateIsTheFoldOverTheMessage : Obligations.StateIsTheFoldOverTheMessage := by
  intro a i s t chunks h hi ha hlen hmax
  obtain ⟨a', hf⟩ := exec_contextReset_freshFor h hi
  obtain rfl : a' = a := Option.some.inj (hf.alg.symm.trans ha)
  obtain ⟨hh, hpending, htrace⟩ := absorb_closedForm_of_bp_eq_zero Config.capability hf.freshWork_bp chunks.flatten
  have hbp := bp_roundtrip (absorb_bp_lt Config.capability _ chunks.flatten hf.freshWork_bp_lt)
  refine ⟨_, _, execAll_updateCommands_of_freshFor hf hlen hmax, ?_, ?_, ?_, htrace,
    map_blockOf_compressCalls _ _ _ _, exec_digest_of_freshFor hf hmax chunks.length⟩
  · rw [putUpdates_bound, hh]
    rfl
  · rw [putUpdates_bp, hbp, ← pending_length, hpending, length_leftover]
    rfl
  · intro o ho
    rw [putUpdates_bp, hbp] at ho
    exact get?_absorb_of_bp_eq_zero Config.capability hf.freshWork_bp chunks.flatten ho

end Sys2Proof.Machine
end

section
/-! SUPPORT. The proofs of the family 60_exceptions: the effect of a rejection (spec R208), and the error record that no step
clears (R210). -/

namespace Sys2Proof.Machine

/-- Settles O35: the first cause is kept, and the rejection writes `ERR`, `ECAUSE`, `FAULT` and `pc` alone. -/
theorem rejectionEffect : Obligations.RejectionEffect := by
  intro cause cw s
  refine ⟨fun herr => ?_, fun herr => ?_, reject_err cause cw s, reject_pc cause cw s, ⟨rfl, rfl, rfl, rfl⟩,
    reject_out cause cw s, reject_trace cause cw s, reject_port cause cw s⟩
  · rw [reject_ecause, herr]
    rfl
  · rw [reject_ecause, herr]
    rfl

/-- `t` still holds the error record of `s`: a set `ERR` with its `ECAUSE`, and a set `FAULT` (R38, R210). -/
structure ErrorRecordKept (s t : State) : Prop where
  err : s.err = true → t.err = true ∧ t.ecause = s.ecause
  fault : ∀ r, s.fault = some r → t.fault = some r

theorem ErrorRecordKept.refl (s : State) : ErrorRecordKept s s := ⟨fun h => ⟨h, rfl⟩, fun _ h => h⟩

theorem ErrorRecordKept.of_eq {s t u : State} (h : ErrorRecordKept s t) (herr : u.err = t.err)
    (hecause : u.ecause = t.ecause) (hfault : u.fault = t.fault) : ErrorRecordKept s u where
  err hs := by rw [herr, hecause]; exact h.err hs
  fault r hr := hfault.trans (h.fault r hr)

/-- A further rejection finds `ERR` set and keeps the first cause, and `FAULT` is recorded once (R208, R209). -/
theorem ErrorRecordKept.reject {s t : State} (h : ErrorRecordKept s t) (cause : RejectCause) (cw : Word) :
    ErrorRecordKept s (reject cause cw t) where
  err hs := by
    obtain ⟨hterr, htecause⟩ := h.err hs
    exact ⟨reject_err cause cw t, by rw [reject_ecause, if_pos hterr, htecause]⟩
  fault r hr := by rw [reject_fault, h.fault r hr, Option.some_or]

/-- A command writes the error record only where it is rejected UNBOUND (R203, R208). -/
theorem exec_errorRecord {i : Instr} {s t : State} (h : exec i s = .next t) :
    (t.err = s.err ∧ t.ecause = s.ecause ∧ t.fault = s.fault) ∨
      (s.bound = none ∧ createdAlg i = none ∧ t = rejectUnbound i s) := by
  obtain ⟨a, -, rfl⟩ | ⟨hb, hc, -, rfl⟩ | ⟨b, -, -, rfl⟩ | ⟨b, len, payload, -, -, -, -, -, rfl⟩ |
    ⟨b, -, -, -, rfl⟩ | ⟨-, rfl⟩ := exec_next h
  · exact .inl ⟨rfl, rfl, rfl⟩
  · exact .inr ⟨hb, hc, rfl⟩
  · exact .inl ⟨rfl, rfl, rfl⟩
  · exact .inl ⟨rfl, rfl, rfl⟩
  · exact .inl ⟨rfl, rfl, rfl⟩
  · exact .inl ⟨rfl, rfl, rfl⟩

theorem step_errorRecordKept {s t : State} (h : step s = .next t) : ErrorRecordKept s t := by
  refine step_keeps (P := ErrorRecordKept s) (fun u _ hu => hu.of_eq rfl rfl rfl) (fun i u v hu hv => ?_)
    (fun c cw _ hu => hu.reject c cw) (.refl s) h
  obtain ⟨herr, hecause, hfault⟩ | ⟨-, -, rfl⟩ := exec_errorRecord hv
  · exact hu.of_eq herr hecause hfault
  · exact hu.reject .unbound (encodeWord i)

/-- Settles O49: every step keeps a set record, and the commands that reset the context are not rejected, so they leave it
whether set or not. -/
theorem errorRecordIsSticky : Obligations.ErrorRecordIsSticky := by
  refine ⟨fun s t h => ⟨(step_errorRecordKept h).err, (step_errorRecordKept h).fault⟩, fun s t i h hi => ?_⟩
  obtain ⟨herr, hecause, -⟩ | ⟨hb, hc, -⟩ := exec_errorRecord h
  · exact ⟨herr, hecause⟩
  · obtain ⟨a, rfl⟩ | ⟨bw, rfl⟩ | ⟨hb', -⟩ := hi
    · cases (createdAlg_create a).symm.trans hc
    · cases hc
    · exact absurd hb hb'

end Sys2Proof.Machine
end

section
/-! SUPPORT. The proofs of the family 70_reset_and_hazards: what a step does with a well-formed command at the front of the
host's stream (spec R57), and the launch state after hardware reset (R230). -/

namespace Sys2Proof

/-- A well-formed command makes a well-formed transaction: its payload has the length its word fixes (R70, R127). -/
theorem encodeTxn_wellFormed {i : Instr} (hi : i.WellFormed) : (encodeTxn i).WellFormed := by
  change (payloadOf i).length = paylen (encodeWord i)
  rw [paylen_encodeWord]
  cases i with
  | update len payload => exact hi
  | createSha1 | createSha2_224 | createSha2_256 | createSha2_384 | createSha2_512 | createBw | digest | reset | status => rfl

/-- Decoding the transaction of a command gives the command back (R77). -/
theorem decode_encodeTxn (i : Instr) : decode (encodeTxn i).cw (encodeTxn i).payload = .command i :=
  decode_encodeWord i (payloadOf i) fun _ _ hu => hu ▸ rfl

end Sys2Proof

namespace Sys2Proof.Machine

theorem fetchTxn_encodeTxn {i : Instr} (hi : i.WellFormed) (rest : HostPort) :
    fetchTxn (encodeTxn i) rest = .command i rest := by
  rw [fetchTxn_wf rest (encodeTxn_wellFormed hi), decode_encodeTxn]

/-- A step that finds a command executes it with the stream moved past it (R57). -/
theorem step_of_fetch_command {s : State} {i : Instr} {rest : HostPort} (h : fetch s.port = .command i rest) :
    step s = exec i { s with port := rest } := by
  rw [step, h]

/-- A step takes the well-formed command at the front of the host's transactions, in any state (R57). -/
theorem step_transactions_encodeTxn {i : Instr} (hi : i.WellFormed) (s : State) (q : List Txn) :
    step { s with port := .transactions (encodeTxn i :: q) } = exec i { s with port := .transactions q } :=
  step_of_fetch_command (fetchTxn_encodeTxn hi (.transactions q))

/-- Settles O52: the launch values stand in `State.reset`, and taking the first transaction is the general rule of a step at
that state. -/
theorem launchState : Obligations.LaunchState :=
  ⟨rfl, rfl, rfl, rfl, rfl, rfl, rfl, rfl, rfl, rfl, rfl, fun _ q hi => step_transactions_encodeTxn hi State.reset q⟩

end Sys2Proof.Machine
end

section
/-! SUPPORT. Proofs of the family 'other', encoding: the byte-stream decoder and the encoder are inverse to each other, an
illegal word has no payload (spec R75 to R78), and the expansions of the pseudo-instructions (R81, R82). -/

namespace Sys2Proof

/-! ### The byte-stream decoder and the encoder (R77, R78) -/

/-- Settles O4: the bytes of a well-formed command are those of a well-formed transaction, which decodes to the command. -/
theorem decodeOfEncodeIsTheCommand : Obligations.DecodeOfEncodeIsTheCommand := by
  intro i rest hi
  rw [encode, decodeBytes_txnBytes _ rest (encodeTxn_wellFormed hi), decode_encodeTxn]

/-- Reading a command from a byte stream is taking a transaction and decoding it. -/
theorem decodeBytes_eq_command {bytes rest : List Byte} {i : Instr} (h : decodeBytes bytes = .command i rest) :
    ∃ t, takeTxn bytes = .txn t rest ∧ decode t.cw t.payload = .command i := by
  unfold decodeBytes at h
  split at h
  · cases h
  · next t rest' ht =>
    split at h
    · next j hj =>
      cases h
      exact ⟨t, ht, hj⟩
    · cases h

/-- The word of a command other than UPDATE is followed by no payload (R77). -/
theorem paylen_encodeWord_of_ne_update {i : Instr} (hi : ∀ len p, i ≠ .update len p) : paylen (encodeWord i) = 0 := by
  rw [paylen_encodeWord]
  cases i with
  | update len p => exact absurd rfl (hi len p)
  | createSha1 | createSha2_224 | createSha2_256 | createSha2_384 | createSha2_512 | createBw | digest | reset | status => rfl

theorem wellFormed_of_encodeTxn {i : Instr} (h : (encodeTxn i).WellFormed) : i.WellFormed := by
  cases i with
  | update len payload => exact h.trans (paylen_encodeWord _)
  | createSha1 | createSha2_224 | createSha2_256 | createSha2_384 | createSha2_512 | createBw | digest | reset | status => trivial

/-- A well-formed transaction that decodes to a command is that command's transaction: UPDATE has taken the whole payload,
and for every other command there is none. -/
theorem encodeTxn_of_decode {t : Txn} {i : Instr} (ht : t.WellFormed) (h : decode t.cw t.payload = .command i) :
    encodeTxn i = t := by
  obtain ⟨hw, ⟨len, rfl⟩ | ⟨hp, hi⟩⟩ := decode_command h
  · rw [encodeTxn, hw]
    rfl
  · have hnil : t.payload = [] := by
      rw [← List.length_eq_zero_iff, ht, ← hw, paylen_encodeWord_of_ne_update hi]
    rw [encodeTxn, hw, hp, ← hnil]

/-- A command that the byte-stream decoder reads is well-formed, and what it has read are the command's bytes. -/
theorem wellFormed_and_eq_encode_of_decodeBytes {bytes rest : List Byte} {i : Instr}
    (h : decodeBytes bytes = .command i rest) : i.WellFormed ∧ bytes = encode i ++ rest := by
  obtain ⟨t, htake, hdecode⟩ := decodeBytes_eq_command h
  obtain ⟨ht, rfl⟩ := takeTxn_eq_txn htake
  obtain rfl := encodeTxn_of_decode ht hdecode
  exact ⟨wellFormed_of_encodeTxn ht, rfl⟩

/-- Settles O5: the transaction taken from the stream is the command's own. -/
theorem decodedBytesAreTheEncoding : Obligations.DecodedBytesAreTheEncoding :=
  fun _ _ _ => wellFormed_and_eq_encode_of_decodeBytes

/-! ### Payload lengths and illegal words (R76, R77) -/

/-- Settles O1: each legal word meets the condition of its row of the table, and the four reserved words meet none. -/
theorem decodesWordsOfEveryFamily : Obligations.DecodesWordsOfEveryFamily := by
  refine ⟨(decode_eq_create_iff _ _ .sha2_256).2 ?_, (decode_eq_create_iff _ _ .sha2_512).2 ?_,
    (decode_eq_createBw_iff _ _ _).2 ?_, (decode_eq_update_iff _ _ _ _).2 ?_, decode_encodeWord .digest [] (by simp),
    decode_encodeWord .reset [] (by simp), decode_encodeWord .status [] (by simp), (decode_eq_illegal_iff _ _).2 ?_,
    (decode_eq_illegal_iff _ _).2 ?_, (decode_eq_illegal_iff _ _).2 ?_, (decode_eq_illegal_iff _ _).2 ?_⟩
  all_goals decide

/-- Only an UPDATE word has a payload (R77). -/
theorem paylen_eq_zero_of_ne_update {cw : Word} {payload : List Byte}
    (h : ∀ len p, decode cw payload ≠ .command (.update len p)) : paylen cw = 0 := by
  by_contra hne
  exact h _ _ (decode_of_paylen hne)

/-- Settles O3: the word is that of the UPDATE it decodes to, and a word with a payload decodes to UPDATE. -/
theorem payloadLengthFollowsDecoding : Obligations.PayloadLengthFollowsDecoding := by
  intro cw payload
  refine ⟨fun len p h => ?_, paylen_eq_zero_of_ne_update⟩
  obtain ⟨rfl, -⟩ := decode_command h
  exact paylen_encodeWord _

theorem paylen_of_illegal {cw : Word} {payload : List Byte} (h : decode cw payload = .illegal cw) : paylen cw = 0 :=
  paylen_eq_zero_of_ne_update fun len p hu => by cases h.symm.trans hu

/-- An illegal word alone is a well-formed transaction (R77). -/
theorem illegal_wellFormed {cw : Word} (h : decode cw [] = .illegal cw) : (Txn.mk cw []).WellFormed :=
  (paylen_of_illegal h).symm

/-- The byte-stream decoder takes four bytes for an illegal word (R78). -/
theorem decodeBytes_illegal {cw : Word} (h : decode cw [] = .illegal cw) (rest : List Byte) :
    decodeBytes (wordBytes cw ++ rest) = .illegal cw rest := by
  have hbytes : wordBytes cw = txnBytes ⟨cw, []⟩ := (List.append_nil _).symm
  rw [hbytes, decodeBytes_txnBytes _ rest (illegal_wellFormed h), h]

/-- Settles O6: an illegal word is a transaction without payload. -/
theorem illegalWordTakesFourBytes : Obligations.IllegalWordTakesFourBytes :=
  fun _ rest h => ⟨paylen_of_illegal h, decodeBytes_illegal h rest⟩

end Sys2Proof

namespace Sys2Proof.Machine

/-! ### Pseudo-instructions (R81, R82) -/

/-- The pieces of a data operand put together are the data, wherever the cutting stops. -/
theorem flatten_splitData : ∀ (fuel : Nat) (data : List Byte), (splitData fuel data).flatten = data
  | 0, data => by simp [splitData]
  | fuel + 1, data => by
    rw [splitData]
    split
    · simp
    · rw [List.flatten_cons, flatten_splitData fuel, List.take_append_drop]

/-- With as many cuts allowed as there are bytes, every piece fits an UPDATE. -/
theorem length_le_of_mem_splitData : ∀ {fuel : Nat} {data piece : List Byte}, data.length ≤ fuel →
    piece ∈ splitData fuel data → piece.length ≤ 65535
  | 0, data, piece, hfuel, hpiece => by
    obtain rfl := List.mem_singleton.1 hpiece
    omega
  | fuel + 1, data, piece, hfuel, hpiece => by
    rw [splitData] at hpiece
    split at hpiece
    · next hshort =>
      obtain rfl := List.mem_singleton.1 hpiece
      exact hshort
    · obtain rfl | hrest := List.mem_cons.1 hpiece
      · exact List.length_take_le _ _
      · exact length_le_of_mem_splitData (by rw [List.length_drop]; omega) hrest

theorem updateCommand_wellFormed {piece : List Byte} (h : piece.length ≤ 65535) : (updateCommand piece).WellFormed := by
  change piece.length = (BitVec.ofNat 16 piece.length).toNat
  rw [BitVec.toNat_ofNat, Nat.mod_eq_of_lt (by omega)]

theorem flatMap_payloadOf_map_updateCommand (pieces : List (List Byte)) :
    (pieces.map updateCommand).flatMap payloadOf = pieces.flatten := by
  rw [List.flatMap_map, List.flatten_eq_flatMap]
  rfl

/-- Saturation is above every threshold of the Strength Selector (R82, R100). -/
theorem select_saturateWidth (bw : Int) : select (saturateWidth bw).toNat = select bw.toNat := by
  rw [saturateWidth_toNat]
  by_cases h : 384 < bw.toNat
  · rw [select_of_gt_384 h, select_of_gt_384 (by omega)]
  · rw [min_eq_left (by omega)]

/-- Settles O7: the pieces put together are the data, each fits an UPDATE, and saturation crosses no threshold. -/
theorem pseudoInstructionsKeepTheirOperands : Obligations.PseudoInstructionsKeepTheirOperands := by
  refine ⟨fun data => ⟨?_, fun i hi => ?_⟩, select_saturateWidth⟩
  · rw [updateCommands, flatMap_payloadOf_map_updateCommand, flatten_splitData]
  · obtain ⟨piece, hpiece, rfl⟩ := List.mem_map.1 hi
    have hlen := length_le_of_mem_splitData le_rfl hpiece
    exact ⟨updateCommand_wellFormed hlen, piece, rfl, hlen⟩

/-- Settles O31: the pieces of the data are the chunks of a message whose digest CREATE, UPDATEs and DIGEST emit. -/
theorem hashLineEmitsTheDigest : Obligations.HashLineEmitsTheDigest := by
  intro a data s hmax
  refine ⟨by simp [assembleLine], ?_⟩
  have hflatten := flatten_splitData data.length data
  obtain ⟨t, ht, hout⟩ := digestIsTheMerkleDamgardFunction a (splitData data.length data) s
    (fun _ => length_le_of_mem_splitData le_rfl) (by rwa [hflatten])
  rw [hflatten] at hout
  exact ⟨t, ht, hout⟩

end Sys2Proof.Machine
end

section
/-! SUPPORT. Proofs of the family 'other', exceptions: the ways a well-formed command can end, the UNBOUND rejection (spec
R203, R208) and the LENGTH fault (R131, R204). -/

namespace Sys2Proof.Machine

/-! ### The rejection UNBOUND (R203, R208) -/

/-- A rejection as one record update, with `FAULT` recorded where it was empty (R38, R208). -/
theorem reject_eq (cause : RejectCause) (cw : Word) (s : State) : reject cause cw s =
    { s with
      err := true
      ecause := if s.err then s.ecause else some cause
      fault := if s.fault.isSome then s.fault else some ⟨cause, cw, s.pc⟩
      pc := s.pc + 1 } := by
  unfold reject
  cases s.fault <;> rfl

/-- UPDATE, DIGEST and RESET need a bound engine (R203). -/
theorem exec_unbound {i : Instr} {s : State} (hb : s.bound = none) (hi : i.WellFormed)
    (h : (∃ len payload, i = .update len payload) ∨ i = .digest ∨ i = .reset) :
    exec i s = .next (rejectUnbound i s) := by
  obtain ⟨len, payload, rfl⟩ | rfl | rfl := h
  · exact updateWith_unbound _ len payload s hi hb
  · simp only [exec, execDigest, digestWith, hb]
  · exact congrArg _ (resetWith_unbound _ s hb)

/-- Settles O36: the three commands that need a bound engine end in the shared rejection, and the others leave the error
record. -/
theorem unboundCommandsAreRejected : Obligations.UnboundCommandsAreRejected := by
  refine ⟨fun s i hb hi h => ?_, fun s i h => ?_⟩
  · rw [exec_unbound hb hi h, rejectUnbound, reject_eq]
  · obtain ⟨a, rfl⟩ | ⟨bw, rfl⟩ | rfl := h
    · exact ⟨_, exec_created (createdAlg_create a) s, rfl, rfl, rfl⟩
    · exact ⟨_, exec_created (a := select bw.toNat) rfl s, rfl, rfl, rfl⟩
    · exact ⟨_, rfl, rfl, rfl, rfl⟩

/-! ### The LENGTH fault (R131, R204) -/

/-- The condition of R204: an UPDATE of a bound engine would make the message longer than `LMAX(ALG)`. -/
def ExceedsLimit (i : Instr) (s : State) : Prop :=
  ∃ len payload b, i = .update len payload ∧ s.bound = some b ∧ b.alg.maxMessageBytes < s.total.toNat + len.toNat

/-- The length is checked before the precondition of `Absorb` (R207). -/
theorem exec_exceedsLimit {i : Instr} {s : State} (hi : i.WellFormed) (h : ExceedsLimit i s) :
    exec i s = .fault .length := by
  obtain ⟨len, payload, b, rfl, hb, hlt⟩ := h
  simp only [exec, execUpdate, updateWith, operandValue, hb]
  rw [if_neg (not_not.2 hi), if_pos hlt]

/-- Every way a well-formed command can end: it completes or is rejected, it exceeds the limit, or a bound engine has no room
for a byte, which the precondition of `Absorb` excludes (R120, R204). -/
theorem exec_wellFormed_cases {i : Instr} (hi : i.WellFormed) (s : State) :
    (∃ t, exec i s = .next t) ∨ (exec i s = .fault .length ∧ ExceedsLimit i s) ∨
      (exec i s = .fault .pendingOverflow ∧ ∃ b, s.bound = some b ∧ b.alg.blockBytes ≤ s.bp.toNat) := by
  cases i with
  | update len payload =>
    cases hb : s.bound with
    | none => exact .inl ⟨_, exec_unbound hb hi (.inl ⟨_, _, rfl⟩)⟩
    | some b =>
      by_cases hmax : s.total.toNat + len.toNat ≤ b.alg.maxMessageBytes
      · by_cases hbp : s.bp.toNat < b.alg.blockBytes
        · exact .inl ⟨_, updateWith_bound _ len payload s b hi hb hmax hbp⟩
        · refine .inr (.inr ⟨?_, b, rfl, not_lt.1 hbp⟩)
          simp only [exec, execUpdate, updateWith, operandValue, hb]
          rw [if_neg (not_not.2 hi), if_neg (not_lt.2 hmax), if_pos (not_lt.1 hbp)]
      · have hexceeds : ExceedsLimit (.update len payload) s := ⟨len, payload, b, rfl, hb, not_le.1 hmax⟩
        exact .inr (.inl ⟨exec_exceedsLimit hi hexceeds, hexceeds⟩)
  | digest =>
    cases hb : s.bound with
    | none => exact .inl ⟨_, exec_unbound hb hi (.inr (.inl rfl))⟩
    | some b =>
      by_cases hbp : s.bp.toNat < b.alg.blockBytes
      · exact .inl ⟨_, digestWith_bound _ s b hb hbp⟩
      · refine .inr (.inr ⟨?_, b, rfl, not_lt.1 hbp⟩)
        simp only [exec, execDigest, digestWith, hb]
        rw [if_pos (not_lt.1 hbp)]
  | createSha1 | createSha2_224 | createSha2_256 | createSha2_384 | createSha2_512 | createBw | reset | status =>
    exact .inl ⟨_, rfl⟩

/-- `exec` refuses no well-formed command (R205). -/
theorem exec_ne_refused {i : Instr} (hi : i.WellFormed) (s : State) (r : Refusal) : exec i s ≠ .refused r := by
  intro h
  obtain ⟨t, ht⟩ | ⟨ht, -⟩ | ⟨ht, -⟩ := exec_wellFormed_cases hi s
  · cases h.symm.trans ht
  · cases h.symm.trans ht
  · cases h.symm.trans ht

theorem exec_eq_length_iff {i : Instr} (hi : i.WellFormed) (s : State) :
    exec i s = .fault .length ↔ ExceedsLimit i s := by
  refine ⟨fun h => ?_, exec_exceedsLimit hi⟩
  obtain ⟨t, ht⟩ | ⟨-, hexceeds⟩ | ⟨ht, -⟩ := exec_wellFormed_cases hi s
  · cases h.symm.trans ht
  · exact hexceeds
  · cases h.symm.trans ht

/-- `LMAX` is the largest length whose bit length fits the padding's length field (R131). -/
theorem le_maxMessageBytes_iff (a : Alg) (messageLen : Nat) :
    messageLen ≤ a.maxMessageBytes ↔ 8 * messageLen < 2 ^ (8 * a.lengthFieldBytes) := by
  cases a <;> simp only [Alg.maxMessageBytes, Alg.lengthFieldBytes, Alg.fam] <;> omega

/-- Settles O37: of the ways a well-formed command can end, one is the LENGTH fault. -/
theorem lengthFaultExactlyWhenExceeded : Obligations.LengthFaultExactlyWhenExceeded :=
  ⟨fun _ s hi => exec_eq_length_iff hi s, fun a n => ⟨alg_lengthFieldBytes_eq a, le_maxMessageBytes_iff a n⟩⟩

/-- Settles O38: the invariant excludes a bound engine without room for a byte. -/
theorem onlyLengthStopsACommand : Obligations.OnlyLengthStopsACommand := by
  intro i s hi hs
  obtain hnext | ⟨hlength, -⟩ | ⟨-, b, hb, hfull⟩ := exec_wellFormed_cases hi s
  · exact .inl hnext
  · exact .inr hlength
  · obtain ⟨hbp, -⟩ := hs.bound_ok b hb
    exact absurd hbp (not_lt.2 hfull)

end Sys2Proof.Machine
end

section
/-! SUPPORT. Proofs of the family 'other', the step: what a step does on each kind of host port (spec R57, R70, R78, R202,
R205, R236), that the two kinds of port run alike, and that instances share nothing (R62). -/

namespace Sys2Proof.Machine

/-! ### What is found at the port -/

theorem fetch_transactions_of_decode {t : Txn} {i : Instr} (ht : t.WellFormed) (h : decode t.cw t.payload = .command i)
    (q : List Txn) : fetch (.transactions (t :: q)) = .command i (.transactions q) := by
  rw [fetch, fetchTxn_wf _ ht, h]

theorem fetch_transactions_illegal {cw : Word} (h : decode cw [] = .illegal cw) (q : List Txn) :
    fetch (.transactions (⟨cw, []⟩ :: q)) = .illegal cw (.transactions q) := by
  rw [fetch, fetchTxn_wf _ (illegal_wellFormed h), h]

theorem fetch_transactions_malformed {t : Txn} (ht : ¬ t.WellFormed) (q : List Txn) :
    fetch (.transactions (t :: q)) = .malformed := by
  rw [fetch, fetchTxn, if_pos ht]

theorem fetch_bytes_of_decodeBytes {bytes rest : List Byte} {i : Instr} (h : decodeBytes bytes = .command i rest) :
    fetch (.bytes bytes) = .command i (.bytes rest) := by
  rw [fetch, h]

theorem fetch_bytes_illegal {cw : Word} (h : decode cw [] = .illegal cw) (rest : List Byte) :
    fetch (.bytes (wordBytes cw ++ rest)) = .illegal cw (.bytes rest) := by
  rw [fetch, decodeBytes_illegal h]

theorem fetch_bytes_of_wait {bytes : List Byte} (h : takeTxn bytes = .wait) : fetch (.bytes bytes) = .waiting := by
  rw [fetch, decodeBytes, h]

/-- No payload is of the wrong length on a byte-serial port (R205). -/
theorem fetch_bytes_ne_malformed (bytes : List Byte) : fetch (.bytes bytes) ≠ .malformed := by
  cases hd : decodeBytes bytes <;> simp [fetch, hd]

/-- A command found on a byte-serial port is well-formed (R78). -/
theorem wellFormed_of_fetch_bytes {bytes : List Byte} {i : Instr} {rest : HostPort}
    (h : fetch (.bytes bytes) = .command i rest) : i.WellFormed := by
  cases hd : decodeBytes bytes with
  | command j r =>
    obtain ⟨rfl, -⟩ := Fetched.command.inj ((fetch_bytes_of_decodeBytes hd).symm.trans h)
    exact (wellFormed_and_eq_encode_of_decodeBytes hd).1
  | illegal cw r => simp [fetch, hd] at h
  | wait => simp [fetch, hd] at h

theorem takeTxn_of_length_lt_four : ∀ {bytes : List Byte}, bytes.length < 4 → takeTxn bytes = .wait
  | [], _ | [_], _ | [_, _], _ | [_, _, _], _ => rfl
  | _ :: _ :: _ :: _ :: rest, h => absurd h (by simp)

/-- A word whose payload is not complete is not taken (R236). -/
theorem takeTxn_wordBytes_of_length_lt {cw : Word} {rest : List Byte} (h : rest.length < paylen cw) :
    takeTxn (wordBytes cw ++ rest) = .wait := by
  simp only [wordBytes_eq, List.cons_append, List.nil_append, takeTxn, wordOfBytes_extract]
  rw [if_neg (not_le.2 h)]

/-! ### What the step does with it -/

theorem step_of_fetch_illegal {s : State} {cw : Word} {rest : HostPort} (h : fetch s.port = .illegal cw rest) :
    step s = .next (reject .illegal cw { s with port := rest }) := by
  rw [step, h]
  rfl

theorem step_of_fetch_malformed {s : State} (h : fetch s.port = .malformed) : step s = .refused .malformed := by
  rw [step, h]

theorem step_of_fetch_waiting {s : State} (h : fetch s.port = .waiting) : step s = .next s := by
  rw [step, h]

/-- A refused step has found a malformed transaction, or executed a command that is not well-formed (R205). -/
theorem step_refused {s : State} {r : Refusal} (h : step s = .refused r) :
    fetch s.port = .malformed ∨ ∃ i rest, fetch s.port = .command i rest ∧ ¬ i.WellFormed := by
  cases hf : fetch s.port with
  | command i rest =>
    rw [step_of_fetch_command hf] at h
    exact .inr ⟨i, rest, rfl, fun hi => exec_ne_refused hi _ r h⟩
  | illegal cw rest =>
    rw [step_of_fetch_illegal hf] at h
    cases h
  | malformed => exact .inl rfl
  | waiting =>
    rw [step_of_fetch_waiting hf] at h
    cases h

/-- Settles O8: the command found is executed with the stream moved past it. -/
theorem stepRunsTheDecodedCommand : Obligations.StepRunsTheDecodedCommand := by
  refine ⟨fun s t q i hport ht h => step_of_fetch_command ?_, fun s bytes rest i hport h => step_of_fetch_command ?_⟩
  · rw [hport, fetch_transactions_of_decode ht h]
  · rw [hport, fetch_bytes_of_decodeBytes h]

/-- Settles O9: on either port the illegal word is found, and the step rejects it. -/
theorem illegalWordIsRejected : Obligations.IllegalWordIsRejected := by
  refine fun s cw h => ⟨fun q hport => ?_, fun rest hport => ?_⟩
  · rw [step_of_fetch_illegal (hport ▸ fetch_transactions_illegal h q), reject_eq]
  · rw [step_of_fetch_illegal (hport ▸ fetch_bytes_illegal h rest), reject_eq]

/-- Settles O10: a byte-serial port finds no malformed transaction and well-formed commands only. -/
theorem malformedTransactionIsRefused : Obligations.MalformedTransactionIsRefused := by
  refine ⟨fun s t q hport ht => step_of_fetch_malformed (hport ▸ fetch_transactions_malformed ht q),
    fun s len payload hlen => if_pos hlen, fun s bytes hport h => ?_⟩
  obtain hf | ⟨i, rest, hf, hi⟩ := step_refused h
  · exact fetch_bytes_ne_malformed bytes (hport ▸ hf)
  · exact hi (wellFormed_of_fetch_bytes (hport ▸ hf))

/-- Settles O11: in the three cases no whole transaction is there. -/
theorem idleEngineHoldsItsState : Obligations.IdleEngineHoldsItsState := by
  refine fun s => ⟨fun hport => ?_, fun bytes hport h => ?_, fun cw rest hport h => ?_⟩
  all_goals refine step_of_fetch_waiting ?_
  · rw [hport, fetch]
  · rw [hport, fetch_bytes_of_wait (takeTxn_of_length_lt_four h)]
  · rw [hport, fetch_bytes_of_wait (takeTxn_wordBytes_of_length_lt h)]

/-- Settles O39: the boundary check comes first, then the word's, then the engine's. -/
theorem checksStandInOrder : Obligations.ChecksStandInOrder := by
  refine ⟨fun s cw payload q h hne hport => ?_, fun s cw q _ h hport => ?_, fun s len payload hb hlen => ?_⟩
  · have hlen : ¬ (Txn.mk cw payload).WellFormed := fun hwf =>
      hne (List.length_eq_zero_iff.1 (hwf.trans (paylen_of_illegal h)))
    exact step_of_fetch_malformed (hport ▸ fetch_transactions_malformed hlen q)
  · obtain ⟨hclear, hset, herr, -⟩ := rejectionEffect .illegal cw { s with port := .transactions q }
    exact ⟨_, step_of_fetch_illegal (hport ▸ fetch_transactions_illegal h q), herr, hclear, hset⟩
  · obtain ⟨hclear, hset, herr, -⟩ := rejectionEffect .unbound (encodeWord (.update len payload)) s
    exact ⟨_, exec_unbound hb hlen (.inl ⟨_, _, rfl⟩), herr, hclear, hset⟩

/-! ### The two kinds of port (R53, R78) -/

theorem outcomeRel_mapOutcome {R : State → State → Prop} {g : State → State} {o : Host.Outcome State Fault Refusal}
    (h : ∀ t, o = .next t → R t (g t)) : OutcomeRel R o (mapOutcome g o) := by
  cases o with
  | next t => exact h t rfl
  | fault r => rfl
  | refused r => rfl

/-- No command writes the host's stream (R61). -/
theorem exec_keeps_port {i : Instr} {s t : State} (h : exec i s = .next t) : t.port = s.port := by
  have hmap := exec_port i s s.port
  rw [show ({ s with port := s.port } : State) = s from rfl, h] at hmap
  have ht : t = { t with port := s.port } := Host.Outcome.next.inj hmap
  rw [ht]

/-- Settles O12: both ports find the same, a command reads nothing of its port, and the transactions left are those of the
bytes left. -/
theorem byteSerialPortRunsAlike : Obligations.ByteSerialPortRunsAlike := by
  intro s ts hts
  cases ts with
  | nil => exact ⟨[], hts, rfl, rfl⟩
  | cons t q =>
    obtain ⟨ht, hq⟩ := List.forall_mem_cons.1 hts
    have hbytes : fetch (.bytes ((t :: q).flatMap txnBytes)) = fetchTxn t (.bytes (q.flatMap txnBytes)) := by
      rw [List.flatMap_cons, fetch_bytes_txn t _ ht]
    have htxns : fetch (.transactions (t :: q)) = fetchTxn t (.transactions q) := rfl
    rw [fetchTxn_wf _ ht] at hbytes htxns
    cases hd : decode t.cw t.payload with
    | command i =>
      rw [hd] at hbytes htxns
      rw [step_of_fetch_command htxns, step_of_fetch_command hbytes]
      have hport := exec_port i { s with port := .transactions q } (.bytes (q.flatMap txnBytes))
      rw [hport]
      exact outcomeRel_mapOutcome fun u hu => ⟨q, hq, exec_keeps_port hu, rfl⟩
    | illegal cw =>
      rw [hd] at hbytes htxns
      rw [step_of_fetch_illegal htxns, step_of_fetch_illegal hbytes]
      exact ⟨q, hq, rfl, rfl⟩

/-! ### Several instances (R62) -/

theorem systemStep_of_next {n : Nat} {k : Fin n} {sys : System n} {s : State} (h : step sys.engines[k] = .next s) :
    systemStep k sys = .next ⟨sys.engines.set k s⟩ := by
  rw [systemStep, h]

theorem systemStep_next {n : Nat} {k : Fin n} {sys sys' : System n} (h : systemStep k sys = .next sys') :
    ∃ s, step sys.engines[k] = .next s ∧ sys' = ⟨sys.engines.set k s⟩ := by
  unfold systemStep at h
  split at h
  · next s hs => exact ⟨s, hs, (Host.Outcome.next.inj h).symm⟩
  · cases h
  · cases h

/-- Settles O51: the step writes the place of its own engine. -/
theorem instancesShareNothing : Obligations.InstancesShareNothing := by
  refine fun n k sys => ⟨fun s h => ⟨_, systemStep_of_next h, by simp⟩, fun sys' h => ?_⟩
  obtain ⟨s, hs, rfl⟩ := systemStep_next h
  refine ⟨by simpa using hs, fun j hj => ?_⟩
  have hne : (k : Nat) ≠ j := fun hkj => hj (Fin.ext hkj.symm)
  simp [hne]

end Sys2Proof.Machine
end

section
/-! SUPPORT. Proofs of the family 'other', the commands that reset the context: CREATE, CREATE_BW, RESET (spec R101, R102,
R126), DIGEST (R128), and the frame they share (R231). -/

namespace Sys2Proof.Machine

@[simp] theorem createWith_buf (cap : Capability) (a : Alg) (s : State) : (createWith cap a s).buf = zeroedBuffer := rfl
@[simp] theorem createWith_trace (cap : Capability) (a : Alg) (s : State) :
    (createWith cap a s).trace = s.trace ++ [.initState a (cap.initState a)] := rfl

theorem get?_zeroedBuffer_of_lt {o : Nat} (ho : o < 128) : zeroedBuffer.get? o = some 0 := by
  rw [get?_zeroedBuffer, if_pos ho]

theorem get?_zeroedBuffer_of_ge {o : Nat} (ho : 128 ≤ o) : zeroedBuffer.get? o = none := by
  rw [get?_zeroedBuffer, if_neg (not_lt.2 ho)]

/-- An engine whose `TOTAL` is 0 is not Accumulating (R31). -/
theorem phase_of_total_eq_zero {s : State} (h : s.total = 0) : s.phase = false := by
  simp [State.phase, h]

theorem State.alg_eq_some_iff {s : State} {a : Alg} : s.alg = some a ↔ ∃ b, s.bound = some b ∧ b.alg = a :=
  Option.map_eq_some_iff

/-- RESET of a bound engine has the effect of CREATE of its algorithm (R101, R126). -/
theorem exec_reset_bound {s : State} {b : Binding} (hb : s.bound = some b) :
    exec .reset s = .next (createWith Config.capability b.alg s) :=
  congrArg _ (resetWith_bound _ s b hb)

/-- Settles O14: the effect of `createWith`, which is that of RESET where the algorithm was bound. -/
theorem createBindsAndResets : Obligations.CreateBindsAndResets := by
  intro a s
  refine ⟨_, exec_created (createdAlg_create a) s, rfl, fun _ => get?_zeroedBuffer_of_lt, rfl, rfl, rfl, rfl,
    phase_of_total_eq_zero rfl, rfl, rfl, rfl, rfl, rfl, fun ha => ?_⟩
  obtain ⟨b, hb, rfl⟩ := State.alg_eq_some_iff.1 ha
  exact exec_reset_bound hb

/-- Settles O15: CREATE_BW is CREATE of the selected algorithm, which is never SHA1. -/
theorem createBwBindsTheSelected : Obligations.CreateBwBindsTheSelected := by
  intro bw s
  have hbw : exec (.createBw bw) s = .next (createWith Config.capability (select bw.toNat) s) := exec_created rfl s
  refine ⟨hbw.trans (exec_created (createdAlg_create _) s).symm, _, hbw, rfl, fun h => ?_,
    fun _ => get?_zeroedBuffer_of_lt, rfl, rfl, rfl, rfl, rfl, rfl, rfl, rfl, rfl⟩
  exact select_ne_sha1 _ (Option.some.inj h)

/-- Settles O16: the effect of `createWith` for the algorithm that is bound. -/
theorem resetReturnsToFresh : Obligations.ResetReturnsToFresh := fun _ _ hb =>
  ⟨_, exec_reset_bound hb, rfl, fun _ => get?_zeroedBuffer_of_lt, rfl, rfl, phase_of_total_eq_zero rfl, rfl, rfl, rfl, rfl,
    rfl, rfl, rfl⟩

/-- Settles O25: unbound, DIGEST is rejected; bound, the fields of the state it leaves stand in its body. -/
theorem digestEmitsAndResets : Obligations.DigestEmitsAndResets := fun s =>
  ⟨fun hb => exec_unbound hb trivial (.inr (.inl rfl)), fun b hb hbp =>
    ⟨_, digestBytes Config.capability b s, digestWith_bound _ s b hb hbp, rfl, digestBytes_length _ b s, rfl, rfl,
      fun _ => get?_zeroedBuffer_of_lt, rfl, rfl, rfl, rfl, rfl, rfl, rfl, rfl⟩⟩

/-- A command that resets the context is CREATE of some algorithm, of the bound one for RESET, or DIGEST of a bound
engine. -/
theorem exec_contextReset_next {i : Instr} {s t : State} (h : exec i s = .next t)
    (hi : (∃ a, i = Instr.create a) ∨ (∃ bw, i = .createBw bw) ∨ s.bound ≠ none ∧ (i = .reset ∨ i = .digest)) :
    (∃ a, t = createWith Config.capability a s ∧ i ≠ .digest ∧ (i = .reset → s.alg = some a)) ∨
      ∃ b, s.bound = some b ∧ i = .digest ∧ s.bp.toNat < b.alg.blockBytes ∧
        t = advance (emit (digestBytes Config.capability b s) (resetContext Config.capability b.alg
          (s.absorb Config.capability b (pad s.total.toNat b.alg.blockBytes)))) := by
  obtain ⟨a, rfl⟩ | ⟨bw, rfl⟩ | ⟨hb, hi⟩ := hi
  · cases (exec_created (createdAlg_create a) s).symm.trans h
    exact .inl ⟨a, rfl, by cases a <;> nofun, by cases a <;> nofun⟩
  · cases (exec_created (i := .createBw bw) rfl s).symm.trans h
    exact .inl ⟨select bw.toNat, rfl, nofun, nofun⟩
  · obtain ⟨b, hb⟩ := Option.ne_none_iff_exists'.1 hb
    obtain rfl | rfl := hi
    · cases (exec_reset_bound hb).symm.trans h
      exact .inl ⟨b.alg, rfl, nofun, fun _ => State.alg_eq_some_iff.2 ⟨b, hb, rfl⟩⟩
    · obtain ⟨hn, -⟩ | ⟨b, hb, hbp, rfl⟩ := digestWith_next h
      · cases hb.symm.trans hn
      · exact .inr ⟨b, hb, rfl, hbp, rfl⟩

/-- `Absorb` extends the record of calls by those of the fold over its blocks (R122, R167). -/
theorem absorb_trace_eq (cap : Capability) {s : State} {b : Binding} (hbp : s.bp.toNat < b.alg.blockBytes)
    (bytes : List Byte) : (s.absorb cap b bytes).trace =
      s.trace ++ compressCalls cap b.alg.fam b.h (blocks b.alg.blockBytes (pending (s.work b) ++ bytes)) := by
  obtain ⟨-, -, htrace⟩ := absorb_closedForm cap bytes (s.work b) hbp
  exact htrace

/-- Settles O40: CREATE, and what it and DIGEST share, write neither the error record nor the stream, and the buffer whole. -/
theorem contextResettingFrame : Obligations.ContextResettingFrame := by
  intro i s t h hi
  obtain ⟨a, rfl, hd, hr⟩ | ⟨b, hb, rfl, hbp, rfl⟩ := exec_contextReset_next h hi
  · refine ⟨rfl, rfl, rfl, rfl, fun _ => rfl, fun hi => ?_, ⟨_, rfl⟩, fun _ => get?_zeroedBuffer_of_ge⟩
    exact (hr (hi.resolve_right hd)).symm
  · refine ⟨rfl, rfl, rfl, rfl, fun hne => absurd rfl hne, fun _ => ?_, ?_, fun _ => get?_zeroedBuffer_of_ge⟩
    · exact (State.alg_eq_some_iff.2 ⟨b, hb, rfl⟩).symm
    · rw [advance_trace, emit_trace, resetContext_trace, absorb_trace_eq _ hbp, List.append_assoc]
      exact ⟨_, rfl⟩

end Sys2Proof.Machine
end

section
/-! SUPPORT. Proofs of the family 'other', `Absorb` and UPDATE: the closed form and the count of calls (spec R120, R122), the
effect of UPDATE and the bytes it stores (R127). -/

namespace Sys2Proof.Machine

variable {f : Family}

/-! ### `Absorb` (R120, R122) -/

theorem filterMap_blockOf_compressCalls (cap : Capability) (f : Family) (h : f.Chain) (blks : List (List Byte)) :
    (compressCalls cap f h blks).filterMap blockOf = blks := by
  have hmap : (compressCalls cap f h blks).filterMap blockOf = ((compressCalls cap f h blks).map blockOf).filterMap id := by
    rw [List.filterMap_map]
    rfl
  rw [hmap, map_blockOf_compressCalls, List.filterMap_map]
  exact List.filterMap_some

/-- Settles O19: the closed form from an empty buffer, with the pending bytes and the blocks of the calls read off. -/
theorem absorbClosedForm : Obligations.AbsorbClosedForm := by
  intro cap f w s hw
  obtain ⟨hh, hpending, htrace⟩ := absorb_closedForm_of_bp_eq_zero cap hw s
  have hbp : (absorb cap w s).bp = s.length % f.blockBytes := by rw [← pending_length, hpending, length_leftover]
  refine ⟨hh, hbp, fun o ho => get?_absorb_of_bp_eq_zero cap hw s (hbp ▸ ho), ?_⟩
  rw [htrace, List.filterMap_append, filterMap_blockOf_compressCalls]

/-- `Absorb` makes one call for each complete block of the pending bytes and the input (R120). -/
theorem absorb_calls (cap : Capability) {w : Work f} (hw : w.bp < f.blockBytes) (s : List Byte) :
    ∃ calls, (absorb cap w s).trace = w.trace ++ calls ∧ calls.length = (w.bp + s.length) / f.blockBytes ∧
      ∀ c ∈ calls, ∃ block, blockOf c = some block ∧ block.length = f.blockBytes := by
  obtain ⟨-, -, htrace⟩ := absorb_closedForm cap s w hw
  exact ⟨_, htrace, by simp, fun c hc => blockOf_of_mem_compressCalls hc⟩

/-- Settles O17: `BP` counts modulo `B`, and there is one call for each complete block. -/
theorem absorbCountsItsCalls : Obligations.AbsorbCountsItsCalls :=
  fun cap _ _ s hw => ⟨absorb_bp_eq_mod cap hw s, absorb_calls cap hw s⟩

theorem absorb_cons (cap : Capability) {w : Work f} (hw : w.bp < f.blockBytes) (b : Byte) (s : List Byte) :
    absorb cap w (b :: s) = absorb cap (absorbByte cap w b) s := by
  rw [absorb_eq_foldl cap w _ hw, absorb_eq_foldl cap _ s (absorbByte_bp_lt cap w b hw), List.foldl_cons]

/-- Byte `i` of the input is stored at the offset `(BP + i) mod B`, and nothing is stored elsewhere (R120). -/
theorem absorb_get?_outside (cap : Capability) {o : Nat} (s : List Byte) : ∀ {w : Work f}, w.bp < f.blockBytes →
    (∀ i < s.length, o ≠ (w.bp + i) % f.blockBytes) → (absorb cap w s).buf.get? o = w.buf.get? o := by
  induction s with
  | nil => exact fun _ _ => rfl
  | cons b s ih =>
    intro w hw ho
    have hfirst : w.bp ≠ o := by
      have := ho 0 (Nat.succ_pos _)
      rw [Nat.add_zero, Nat.mod_eq_of_lt hw] at this
      exact this.symm
    have hrest : ∀ i < s.length, o ≠ ((absorbByte cap w b).bp + i) % f.blockBytes := by
      intro i hi
      rw [absorbByte_bp cap w b hw, Nat.mod_add_mod, Nat.add_right_comm]
      exact ho (i + 1) (Nat.succ_lt_succ hi)
    rw [absorb_cons cap hw, ih (absorbByte_bp_lt cap w b hw) hrest, absorbByte_buf, Memory.get?_set_other _ _ hfirst]

/-! ### UPDATE (R127) -/

/-- Settles O20: the three ways of an UPDATE, the last with the counts of `Absorb`. -/
theorem updateAbsorbsItsPayload : Obligations.UpdateAbsorbsItsPayload := by
  intro s len payload hlen
  refine ⟨updateWith_unbound _ len payload s hlen, fun b hb => ⟨fun hmax => ?_, fun hmax hbp => ?_⟩⟩
  · exact exec_exceedsLimit (i := .update len payload) hlen ⟨len, payload, b, rfl, hb, hmax⟩
  · obtain ⟨calls, htrace, hcount, -⟩ := absorb_calls Config.capability (w := s.work b) hbp payload
    refine ⟨_, updateWith_bound _ len payload s b hlen hb hmax hbp, rfl, rfl, ?_, total_roundtrip hmax, rfl, ?_, rfl, rfl,
      rfl, rfl, rfl, rfl⟩
    · rw [advance_bp, countBytes_bp, absorb_bp, bp_roundtrip (absorb_bp_lt _ _ payload hbp),
        absorb_bp_eq_mod _ hbp, hlen]
      rfl
    · rw [advance_trace, countBytes_trace, absorb_trace, htrace, List.length_append, hcount, hlen]
      rfl

/-- Settles O21: UPDATE writes back what `Absorb` leaves, and `Absorb` stores at these offsets alone. -/
theorem updateStoresOnlyItsBytes : Obligations.UpdateStoresOnlyItsBytes := by
  intro s t len payload h
  obtain ⟨-, ⟨hn, rfl⟩ | ⟨b, hb, -, hbp, rfl⟩⟩ := updateWith_next h
  · exact ⟨fun _ _ => rfl, fun b hb => by simp [hn] at hb⟩
  · refine ⟨fun hn => by simp [hn] at hb, fun b' hb' => ?_⟩
    obtain rfl := Option.some.inj (hb.symm.trans hb')
    exact ⟨(State.alg_eq_some_iff.2 ⟨b, hb, rfl⟩).symm, rfl, rfl, rfl, rfl, rfl,
      fun o => absorb_get?_outside _ (w := s.work b) payload hbp⟩

end Sys2Proof.Machine
end

section
/-! SUPPORT. Proofs of the family 'other', STATUS: its frame and the layout of the status word (spec R180, R181). -/

namespace Sys2Proof.Machine

/-- The status word reports neither the position in the stream nor the word of a rejected command (R181). -/
theorem statusWord_reject (cause : RejectCause) (cw : Word) (s : State) (pc : Nat) :
    statusWord (reject cause cw { s with pc := pc }) = statusWord (reject cause 0 s) := rfl

/-- Settles O32: STATUS is `emitStatus`, and the three words are those of `statusWord` at given states. -/
theorem statusEmitsTheStatusWord : Obligations.StatusEmitsTheStatusWord :=
  ⟨fun _ => rfl, by decide, fun cw pc => (statusWord_reject .illegal cw State.reset pc).trans (by decide),
    fun cw pc => (statusWord_reject .unbound cw State.reset pc).trans (by decide)⟩

/-- STATUS reports nothing that STATUS writes (R180). -/
theorem statusWord_emitStatus (s : State) : statusWord (emitStatus s) = statusWord s := rfl

/-- Settles O34: the second STATUS finds the same status word. -/
theorem statusIsIdempotent : Obligations.StatusIsIdempotent := by
  refine fun s => ⟨emitStatus (emitStatus s), rfl, ?_, ⟨rfl, rfl, rfl, rfl⟩⟩
  rw [emitStatus_out, emitStatus_out, statusWord_emitStatus]
  rfl

/-- Settles O41: `emitStatus` writes `OUT` and `pc` alone. -/
theorem statusFrame : Obligations.StatusFrame := by
  intro s t h
  cases h
  exact ⟨⟨rfl, rfl, rfl, rfl⟩, rfl, rfl, rfl, rfl, rfl, fun _ => rfl⟩

theorem phase_eq_true_iff (s : State) : s.phase = true ↔ s.bound ≠ none ∧ s.total ≠ 0 := by
  simp [State.phase, Option.isSome_iff_ne_none]

/-- From bit 6 on the status word holds its five upper pieces (R181). -/
theorem extractLsb'_statusWord (s : State) {k n : Nat} (hk : 6 ≤ k) : (statusWord s).extractLsb' k n =
    ((0 : BitVec 13) ++ ecauseCode s.ecause ++ (0 : BitVec 1) ++ s.bp ++ (0 : BitVec 2)).extractLsb' (k - 6) n := by
  rw [statusWord, BitVec.extractLsb'_append_eq_of_le (by omega), BitVec.extractLsb'_append_eq_of_le (by omega),
    BitVec.extractLsb'_append_eq_of_le (by omega)]
  rfl

/-- Settles O33: the fields are the pieces that `statusWord` puts together. -/
theorem statusWordLayout : Obligations.StatusWordLayout := by
  intro s
  refine ⟨?_, ?_, ?_, ?_, ?_, ?_, ?_, ?_⟩
  · rw [statusWord, BitVec.extractLsb'_append_eq_right]
    cases hb : s.bound <;> simp [State.algCode, State.alg, hb]
  · rw [← phase_eq_true_iff, statusWord, BitVec.getLsbD_append, if_neg (by decide), BitVec.getLsbD_append,
      if_pos (by decide)]
    simp
  · rw [statusWord, BitVec.getLsbD_append, if_neg (by decide), BitVec.getLsbD_append, if_neg (by decide),
      BitVec.getLsbD_append, if_pos (by decide)]
    simp
  · rw [extractLsb'_statusWord s (by decide), BitVec.extractLsb'_append_eq_right]
  · rw [extractLsb'_statusWord s (by decide), BitVec.extractLsb'_append_eq_of_le (by decide),
      BitVec.extractLsb'_append_eq_right]
  · have hbit : (statusWord s).extractLsb' 15 1 = 0 := by
      rw [extractLsb'_statusWord s (by decide), BitVec.extractLsb'_append_eq_of_le (by decide),
        BitVec.extractLsb'_append_eq_of_le (by decide), BitVec.extractLsb'_append_eq_right]
    simpa using congrArg (·.getLsbD 0) hbit
  · rw [extractLsb'_statusWord s (by decide), BitVec.extractLsb'_append_eq_of_le (by decide),
      BitVec.extractLsb'_append_eq_of_le (by decide), BitVec.extractLsb'_append_eq_of_le (by decide),
      BitVec.extractLsb'_append_eq_right]
    rcases s.ecause with _ | _ | _ <;> rfl
  · rw [extractLsb'_statusWord s (by decide), BitVec.extractLsb'_append_eq_of_le (by decide),
      BitVec.extractLsb'_append_eq_of_le (by decide), BitVec.extractLsb'_append_eq_of_le (by decide),
      BitVec.extractLsb'_append_eq_left]

end Sys2Proof.Machine
end

section
/-! SUPPORT. Proofs of the family 'other', what every step keeps: `pc` and `ALG` (spec R24, R35), the record of capability
calls that ends in `H` (R29, R164), and the engine invariant (R26, R30, R33). -/

namespace Sys2Proof.Machine

/-! ### `pc` and `ALG` (R24, R35) -/

theorem exec_pc {i : Instr} {s t : State} (h : exec i s = .next t) : t.pc = s.pc + 1 := by
  obtain ⟨a, -, rfl⟩ | ⟨-, -, -, rfl⟩ | ⟨b, -, -, rfl⟩ | ⟨b, len, payload, -, -, -, -, -, rfl⟩ | ⟨b, -, -, -, rfl⟩ |
    ⟨-, rfl⟩ := exec_next h
  all_goals rfl

/-- Settles O43: a command and a rejection advance `pc` once. -/
theorem pcCountsTransactions : Obligations.PcCountsTransactions := by
  refine ⟨fun i s t => exec_pc, fun s t h => ?_⟩
  obtain ⟨i, rest, -, he⟩ | ⟨cw, rest, -, rfl⟩ | ⟨hf, rfl⟩ := step_next h
  · have hpc := exec_pc he
    exact .inl hpc
  · exact .inl rfl
  · exact .inr ⟨rfl, hf⟩

/-- A command leaves the algorithm it creates, and any other that of before (R24). -/
theorem exec_alg {i : Instr} {s t : State} (h : exec i s = .next t) : t.alg = (createdAlg i).or s.alg := by
  obtain ⟨a, ha, rfl⟩ | ⟨-, hc, -, rfl⟩ | ⟨b, hb, rfl, rfl⟩ | ⟨b, len, payload, hb, rfl, -, -, -, rfl⟩ |
    ⟨b, hb, rfl, -, rfl⟩ | ⟨rfl, rfl⟩ := exec_next h
  · rw [ha]
    rfl
  · rw [hc]
    rfl
  · simp [createdAlg, State.alg, hb]
  · simp [createdAlg, State.alg, hb]
  · simp [createdAlg, State.alg, hb]
  · rfl

/-- CREATE and CREATE_BW are the commands that create an algorithm. -/
theorem create_or_createBw_of_createdAlg {i : Instr} (h : createdAlg i ≠ none) :
    (∃ a, i = Instr.create a) ∨ ∃ bw, i = .createBw bw := by
  cases i with
  | createSha1 => exact .inl ⟨.sha1, rfl⟩
  | createSha2_224 => exact .inl ⟨.sha2_224, rfl⟩
  | createSha2_256 => exact .inl ⟨.sha2_256, rfl⟩
  | createSha2_384 => exact .inl ⟨.sha2_384, rfl⟩
  | createSha2_512 => exact .inl ⟨.sha2_512, rfl⟩
  | createBw bw => exact .inr ⟨bw, rfl⟩
  | update | digest | reset | status => exact absurd rfl h

theorem algCode_legal (s : State) : s.algCode ≤ 4 ∨ s.algCode = 0xF := by
  unfold State.algCode
  split
  · exact .inr rfl
  · next b _ => exact .inl (by cases b.alg <;> decide)

/-- Settles O44: only a command that creates an algorithm changes `ALG`. -/
theorem algorithmIsBoundOnlyByCreate : Obligations.AlgorithmIsBoundOnlyByCreate := by
  refine ⟨fun i s t h => ⟨?_, ?_, fun ha hbw => ?_⟩, fun s t h hne => ?_, algCode_legal⟩
  · rintro a rfl
    rw [exec_alg h, createdAlg_create, Option.some_or]
  · rintro bw rfl
    exact exec_alg h
  · have hc : createdAlg i = none := by
      by_contra hc
      obtain ⟨a, hi⟩ | ⟨bw, hi⟩ := create_or_createBw_of_createdAlg hc
      · exact ha a hi
      · exact hbw bw hi
    rw [exec_alg h, hc, Option.none_or]
  · obtain ⟨i, rest, hf, he⟩ | ⟨cw, rest, -, rfl⟩ | ⟨-, rfl⟩ := step_next h
    · refine ⟨i, rest, hf, create_or_createBw_of_createdAlg fun hc => hne ?_⟩
      rw [exec_alg he, hc, Option.none_or]
      rfl
    · exact absurd rfl hne
    · exact absurd rfl hne

/-! ### The record of capability calls (R29, R164, R167) -/

theorem State.chain_of_bound {s : State} {b : Binding} (hb : s.bound = some b) : s.chain = some ⟨b.alg.fam, b.h⟩ := by
  rw [State.chain, hb]
  rfl

/-- The last of the `Compress` calls on blocks returned the fold over them. -/
theorem resultOf_getLast_compressCalls {cap : Capability} {f : Family} (blks : List (List Byte)) : ∀ {h : f.Chain}
    {c : CapCall}, (compressCalls cap f h blks).getLast? = some c → resultOf c = ⟨f, compressAll cap f h blks⟩ := by
  induction blks with
  | nil => exact nofun
  | cons blk blks ih =>
    intro h c hc
    cases blks with
    | nil =>
      obtain rfl := Option.some.inj hc
      rfl
    | cons blk' blks' => exact ih hc

/-- The calls of `t` beyond those of `s`: if there is none, the binding with `H` is that of `s`, and `H` of `t` is what the
last one returned (R29, R164). -/
def CallsEndInChain (s t : State) : Prop :=
  ∃ calls, t.trace = s.trace ++ calls ∧ (calls = [] → t.bound = s.bound) ∧
    ∀ c, calls.getLast? = some c → t.chain = some (resultOf c)

theorem CallsEndInChain.of_eq {s t : State} (htrace : t.trace = s.trace) (hbound : t.bound = s.bound) :
    CallsEndInChain s t :=
  ⟨[], by rw [htrace, List.append_nil], fun _ => hbound, nofun⟩

/-- Every reset of the context ends the record with `InitState` (R231). -/
theorem CallsEndInChain.of_reset {s t : State} {a : Alg} {h : a.Chain} (calls : List CapCall)
    (htrace : t.trace = s.trace ++ calls ++ [.initState a h]) (hbound : t.bound = some ⟨a, h⟩) : CallsEndInChain s t := by
  refine ⟨calls ++ [.initState a h], by rw [htrace, List.append_assoc], fun hnil => by simp at hnil, fun c hc => ?_⟩
  obtain rfl : .initState a h = c := by simpa using hc
  exact State.chain_of_bound hbound

/-- `Absorb` makes no call and leaves `H`, or ends the record with the call that returned `H` (R120). -/
theorem callsEndInChain_absorb (cap : Capability) {s : State} {b : Binding} (hb : s.bound = some b)
    (hbp : s.bp.toNat < b.alg.blockBytes) (bytes : List Byte) : CallsEndInChain s (s.absorb cap b bytes) := by
  obtain ⟨hh, -, -⟩ := absorb_closedForm cap bytes (s.work b) hbp
  refine ⟨_, absorb_trace_eq cap hbp bytes, fun hnil => ?_, fun c hc => ?_⟩
  · have hblocks : blocks b.alg.blockBytes (pending (s.work b) ++ bytes) = [] :=
      List.length_eq_zero_iff.1 (by rw [← compressCalls_length cap b.alg.fam b.h, hnil, List.length_nil])
    rw [absorb_bound, hh, hb]
    change some (Binding.mk b.alg (compressAll cap b.alg.fam b.h (blocks b.alg.blockBytes _))) = _
    rw [hblocks]
    rfl
  · rw [State.chain_of_bound (absorb_bound cap s b bytes), hh, resultOf_getLast_compressCalls _ hc]
    rfl

theorem exec_callsEndInChain {i : Instr} {s t : State} (h : exec i s = .next t) : CallsEndInChain s t := by
  obtain ⟨a, -, rfl⟩ | ⟨-, -, -, rfl⟩ | ⟨b, -, -, rfl⟩ | ⟨b, len, payload, hb, -, -, -, hbp, rfl⟩ | ⟨b, -, -, hbp, rfl⟩ |
    ⟨-, rfl⟩ := exec_next h
  · exact .of_reset (a := a) [] (by simp) rfl
  · exact .of_eq rfl rfl
  · exact .of_reset (a := b.alg) [] (by simp) rfl
  · exact callsEndInChain_absorb _ hb hbp payload
  · exact .of_reset (a := b.alg) _ (congrArg (· ++ _) (absorb_trace_eq _ hbp _)) rfl
  · exact .of_eq rfl rfl

/-- Settles O46: a rejection and an idle step leave record and binding, and every command's calls end in its `H`. -/
theorem onlyTheCapabilityMutatesTheChain : Obligations.OnlyTheCapabilityMutatesTheChain := by
  intro s t h
  obtain ⟨i, rest, -, he⟩ | ⟨cw, rest, -, rfl⟩ | ⟨-, rfl⟩ := step_next h
  · have hcalls := exec_callsEndInChain he
    exact hcalls
  · exact CallsEndInChain.of_eq rfl rfl
  · exact CallsEndInChain.of_eq rfl rfl

/-- STATUS, an UPDATE without bytes and a command rejected UNBOUND make no call (R164). -/
theorem exec_quiet {i : Instr} {s t : State} (h : exec i s = .next t)
    (hi : i = .status ∨ (∃ payload, i = .update 0 payload) ∨
      s.bound = none ∧ ((∃ len payload, i = .update len payload) ∨ i = .reset ∨ i = .digest)) : t.trace = s.trace := by
  obtain rfl | ⟨payload, rfl⟩ | ⟨hb, hi⟩ := hi
  · cases h
    rfl
  · obtain ⟨hlen, ⟨-, rfl⟩ | ⟨b, -, -, -, rfl⟩⟩ := updateWith_next h
    · rfl
    · obtain rfl : payload = [] := List.length_eq_zero_iff.1 hlen
      rfl
  · obtain ⟨a, ha, -⟩ | ⟨-, -, -, rfl⟩ | ⟨b, hb', -⟩ | ⟨b, -, -, hb', -⟩ | ⟨b, hb', -⟩ | ⟨-, rfl⟩ := exec_next h
    · obtain ⟨len, payload, rfl⟩ | rfl | rfl := hi
      · cases ha
      · cases ha
      · cases ha
    · rfl
    · simp [hb] at hb'
    · simp [hb] at hb'
    · simp [hb] at hb'
    · rfl

/-- Settles O47: by the command, and for an illegal word by the rejection. -/
theorem quietCommandsMakeNoCall : Obligations.QuietCommandsMakeNoCall := by
  refine ⟨fun i s t => exec_quiet, fun s t cw rest hf h => ?_⟩
  cases (step_of_fetch_illegal hf).symm.trans h
  rfl

/-- Settles O55: nothing is recorded and no `H` is held. -/
theorem resetCallsAreLinked : Obligations.ResetCallsAreLinked := .nil

/-- The calls of a fold over full blocks link on to a record that ends in the state they start from (R162). -/
theorem traceLinked_append_compressCalls {cap : Capability} {f : Family} (blks : List (List Byte)) :
    ∀ {calls : List CapCall} {h : f.Chain}, TraceLinked cap calls (some ⟨f, h⟩) →
      (∀ blk ∈ blks, blk.length = f.blockBytes) →
      TraceLinked cap (calls ++ compressCalls cap f h blks) (some ⟨f, compressAll cap f h blks⟩) := by
  induction blks with
  | nil =>
    intro calls h hl _
    rw [compressCalls, List.append_nil]
    exact hl
  | cons blk blks ih =>
    intro calls h hl hlen
    obtain ⟨hblk, hblks⟩ := List.forall_mem_cons.1 hlen
    rw [compressCalls, List.append_cons]
    exact ih (.compress calls f h blk hl hblk) hblks

/-- `Absorb` keeps the record linked and ending in `H`. -/
theorem traceLinked_absorb {cap : Capability} {s : State} {b : Binding} (hs : TraceLinked cap s.trace s.chain)
    (hb : s.bound = some b) (hbp : s.bp.toNat < b.alg.blockBytes) (bytes : List Byte) :
    TraceLinked cap (s.absorb cap b bytes).trace (s.absorb cap b bytes).chain := by
  obtain ⟨hh, -, -⟩ := absorb_closedForm cap bytes (s.work b) hbp
  rw [State.chain_of_bound hb] at hs
  rw [absorb_trace_eq cap hbp, State.chain_of_bound (absorb_bound cap s b bytes), hh]
  exact traceLinked_append_compressCalls _ hs fun _ => length_of_mem_blocks

theorem exec_traceLinked {i : Instr} {s t : State} (hs : TraceLinked Config.capability s.trace s.chain)
    (h : exec i s = .next t) : TraceLinked Config.capability t.trace t.chain := by
  obtain ⟨a, -, rfl⟩ | ⟨-, -, -, rfl⟩ | ⟨b, -, -, rfl⟩ | ⟨b, len, payload, hb, -, -, -, hbp, rfl⟩ |
    ⟨b, hb, -, hbp, rfl⟩ | ⟨-, rfl⟩ := exec_next h
  · exact .initState _ _ a hs
  · exact hs
  · exact .initState _ _ b.alg hs
  · exact traceLinked_absorb hs hb hbp payload
  · exact .initState _ _ b.alg (traceLinked_absorb hs hb hbp _)
  · exact hs

/-- Settles O56: only `Absorb` and the reset of the context make calls, and both link them on. -/
theorem stepKeepsCallsLinked : Obligations.StepKeepsCallsLinked := fun _ _ =>
  step_keeps (P := fun s => TraceLinked Config.capability s.trace s.chain) (fun _ _ hs => hs)
    (fun _ _ _ => exec_traceLinked) (fun _ _ _ hs => hs)

/-! ### The engine invariant (R26, R30, R33) -/

/-- Settles O53: nothing is written and nothing is bound. -/
theorem resetMeetsTheInvariant : Obligations.ResetMeetsTheInvariant where
  buf_wf := rfl
  bound_ok := nofun
  unbound_ok _ := ⟨rfl, rfl⟩
  err_ecause := rfl
  fault_ecause := rfl
  fault_pc := nofun

/-- The invariant's part on the Engine Context (R26, R33, R131). -/
structure State.ContextInv (s : State) : Prop where
  buf_wf : s.buf.wf = true
  bound_ok : ∀ b, s.bound = some b →
    s.bp.toNat < b.alg.blockBytes ∧ s.bp.toNat = s.total.toNat % b.alg.blockBytes ∧
      s.total.toNat ≤ b.alg.maxMessageBytes ∧ ∀ o < 128, (s.buf.get? o).isSome = true
  unbound_ok : s.bound = none → s.bp = 0 ∧ s.total = 0

/-- The invariant's part on the error record (R30, R38). -/
structure State.ErrorInv (s : State) : Prop where
  err_ecause : s.err = s.ecause.isSome
  fault_ecause : s.fault.map FaultRecord.cause = s.ecause
  fault_pc : ∀ r, s.fault = some r → r.pc < s.pc

theorem State.Inv.contextInv {s : State} (hs : s.Inv) : s.ContextInv := ⟨hs.buf_wf, hs.bound_ok, hs.unbound_ok⟩

theorem State.Inv.errorInv {s : State} (hs : s.Inv) : s.ErrorInv := ⟨hs.err_ecause, hs.fault_ecause, hs.fault_pc⟩

theorem State.ContextInv.inv {s : State} (hc : s.ContextInv) (he : s.ErrorInv) : s.Inv :=
  ⟨hc.buf_wf, hc.bound_ok, hc.unbound_ok, he.err_ecause, he.fault_ecause, he.fault_pc⟩

theorem State.ContextInv.of_sameContext {s t : State} (hs : s.ContextInv) (h : SameContext t s) : t.ContextInv := by
  obtain ⟨hbound, hbuf, hbp, htotal⟩ := h
  refine ⟨?_, ?_, ?_⟩
  · rw [hbuf]
    exact hs.buf_wf
  · rw [hbound, hbuf, hbp, htotal]
    exact hs.bound_ok
  · rw [hbound, hbp, htotal]
    exact hs.unbound_ok

/-- A fresh context meets the invariant (R231). -/
theorem State.FreshFor.contextInv {s : State} {a : Alg} (hs : s.FreshFor a) : s.ContextInv := by
  refine State.ContextInv.of_sameContext (s := resetContext Config.capability a s) ⟨zeroedBuffer_wf, fun b hb => ?_, nofun⟩ hs
  cases hb
  exact ⟨Family.blockBytes_pos a.fam, (Nat.zero_mod _).symm, Nat.zero_le _, fun o ho => by
    rw [resetContext_buf, get?_zeroedBuffer_of_lt ho]; rfl⟩

/-- An admitted UPDATE keeps `BP` the count modulo `B`, the message within its limit and the buffer written (R127). -/
theorem State.ContextInv.update {s : State} {b : Binding} {bytes : List Byte} (hs : s.ContextInv) (hb : s.bound = some b)
    (hmax : s.total.toNat + bytes.length ≤ b.alg.maxMessageBytes) :
    (countBytes bytes.length (s.absorb Config.capability b bytes)).ContextInv := by
  obtain ⟨hbp, hmod, -, hwritten⟩ := hs.bound_ok b hb
  refine ⟨absorb_wf _ (s.work b) bytes hbp hs.buf_wf, fun b' hb' => ?_, nofun⟩
  cases hb'
  have htotal := total_roundtrip hmax
  have hbp' := bp_roundtrip (absorb_bp_lt Config.capability (s.work b) bytes hbp)
  simp only [countBytes_bp, countBytes_total, countBytes_buf, absorb_bp, absorb_total, absorb_buf, hbp', htotal]
  refine ⟨absorb_bp_lt _ _ bytes hbp, ?_, hmax, fun o ho => absorb_written _ _ bytes hbp o (hwritten o ho)⟩
  rw [absorb_bp_eq_mod _ hbp]
  change (s.bp.toNat + bytes.length) % b.alg.blockBytes = _
  rw [hmod, Nat.mod_add_mod]

theorem State.ErrorInv.of_eq {s t : State} (hs : s.ErrorInv) (herr : t.err = s.err) (hecause : t.ecause = s.ecause)
    (hfault : t.fault = s.fault) (hpc : s.pc ≤ t.pc) : t.ErrorInv where
  err_ecause := by rw [herr, hecause, hs.err_ecause]
  fault_ecause := by rw [hfault, hecause, hs.fault_ecause]
  fault_pc r hr := (hs.fault_pc r (hfault ▸ hr)).trans_le hpc

/-- A rejection records its cause in `ECAUSE` and `FAULT` together, where nothing was recorded (R208). -/
theorem State.ErrorInv.reject {s : State} (hs : s.ErrorInv) (cause : RejectCause) (cw : Word) :
    (reject cause cw s).ErrorInv := by
  cases hf : s.fault with
  | none =>
    have hecause : s.ecause = none := by rw [← hs.fault_ecause, hf]; rfl
    have herr : s.err = false := by rw [hs.err_ecause, hecause]; rfl
    refine ⟨by simp [herr], by simp [herr, hf], fun r hr => ?_⟩
    rw [reject_fault, hf, Option.none_or] at hr
    cases hr
    exact Nat.lt_succ_self _
  | some r =>
    have hecause : s.ecause = some r.cause := by rw [← hs.fault_ecause, hf]; rfl
    have herr : s.err = true := by rw [hs.err_ecause, hecause]; rfl
    refine ⟨by simp [herr, hecause], by simp [herr, hecause, hf], fun r' hr' => ?_⟩
    rw [reject_fault, hf, Option.some_or] at hr'
    cases hr'
    exact (hs.fault_pc r hf).trans (Nat.lt_succ_self _)

theorem exec_contextInv {i : Instr} {s t : State} (hs : s.ContextInv) (h : exec i s = .next t) : t.ContextInv := by
  obtain ⟨a, -, rfl⟩ | ⟨-, -, -, rfl⟩ | ⟨b, -, -, rfl⟩ | ⟨b, len, payload, hb, -, hlen, hmax, -, rfl⟩ |
    ⟨b, hb, rfl, -, -⟩ | ⟨-, rfl⟩ := exec_next h
  · exact (freshFor_createWith a s).contextInv
  · exact hs.of_sameContext ⟨rfl, rfl, rfl, rfl⟩
  · exact (freshFor_createWith b.alg s).contextInv
  · rw [← hlen] at hmax ⊢
    exact (hs.update hb hmax).of_sameContext ⟨rfl, rfl, rfl, rfl⟩
  · exact (exec_digest_freshFor hb h).1.contextInv
  · exact hs.of_sameContext ⟨rfl, rfl, rfl, rfl⟩

theorem exec_errorInv {i : Instr} {s t : State} (hs : s.ErrorInv) (h : exec i s = .next t) : t.ErrorInv := by
  obtain ⟨herr, hecause, hfault⟩ | ⟨-, -, rfl⟩ := exec_errorRecord h
  · exact hs.of_eq herr hecause hfault (exec_pc h ▸ Nat.le_succ _)
  · exact hs.reject .unbound (encodeWord i)

theorem State.Inv.withPort {s : State} (hs : s.Inv) (r : HostPort) : ({ s with port := r } : State).Inv :=
  ⟨hs.buf_wf, hs.bound_ok, hs.unbound_ok, hs.err_ecause, hs.fault_ecause, hs.fault_pc⟩

theorem State.Inv.reject {s : State} (hs : s.Inv) (cause : RejectCause) (cw : Word) : (reject cause cw s).Inv :=
  (hs.contextInv.of_sameContext (t := Machine.reject cause cw s) ⟨rfl, rfl, rfl, rfl⟩).inv (hs.errorInv.reject cause cw)

/-- Settles O54: every command and every rejection keeps both parts of the invariant. -/
theorem stepKeepsTheInvariant : Obligations.StepKeepsTheInvariant := fun _ _ =>
  step_keeps (P := State.Inv) (fun _ r hs => hs.withPort r)
    (fun _ _ _ hs h => (exec_contextInv hs.contextInv h).inv (exec_errorInv hs.errorInv h))
    (fun c cw _ hs => hs.reject c cw)

end Sys2Proof.Machine
end

section
/-! SUPPORT. Proofs of the family 'other', noninterference: what a command does depends on the Engine Context alone, and of the
buffer on the pending bytes alone (spec R20, R39, R122). -/

namespace Sys2Proof.Machine

/-- The rule for two runs of one command: `ALG`, `BP` and `TOTAL` decide how it ends, so what is left to show is that its
effects are related, for each kind of command. -/
theorem outcomeRel_exec {R : State → State → Prop} {i : Instr} {s t : State} (hbound : s.bound = t.bound)
    (hbp : s.bp = t.bp) (htotal : s.total = t.total)
    (hcreate : ∀ a, R (createWith Config.capability a s) (createWith Config.capability a t))
    (hreject : R (rejectUnbound i s) (rejectUnbound i t))
    (hupdate : ∀ b len payload, s.bound = some b → s.bp.toNat < b.alg.blockBytes →
      R (advance (countBytes len (s.absorb Config.capability b payload)))
        (advance (countBytes len (t.absorb Config.capability b payload))))
    (hdigest : ∀ b, s.bound = some b → s.bp.toNat < b.alg.blockBytes →
      R (advance (emit (digestBytes Config.capability b s) (resetContext Config.capability b.alg
          (s.absorb Config.capability b (pad s.total.toNat b.alg.blockBytes)))))
        (advance (emit (digestBytes Config.capability b t) (resetContext Config.capability b.alg
          (t.absorb Config.capability b (pad t.total.toNat b.alg.blockBytes))))))
    (hstatus : i = .status → R (emitStatus s) (emitStatus t)) :
    OutcomeRel R (exec i s) (exec i t) := by
  cases i with
  | update len payload =>
    simp only [exec, execUpdate, updateWith, ← hbound, ← hbp, ← htotal]
    split
    · rfl
    · cases hb : s.bound with
      | none => exact hreject
      | some b =>
        dsimp only
        split
        · rfl
        · split
          · rfl
          · next hfull => exact hupdate b _ payload hb (not_le.1 hfull)
  | digest =>
    simp only [exec, execDigest, digestWith, ← hbound, ← hbp]
    cases hb : s.bound with
    | none => exact hreject
    | some b =>
      dsimp only
      split
      · rfl
      · next hfull => exact hdigest b hb (not_le.1 hfull)
  | reset =>
    simp only [exec, execReset, resetWith, ← hbound]
    cases hb : s.bound with
    | none => exact hreject
    | some b => exact hcreate b.alg
  | createSha1 | createSha2_224 | createSha2_256 | createSha2_384 | createSha2_512 | createBw => exact hcreate _
  | status => exact hstatus rfl

/-! ### `Absorb` reads the pending bytes and `H` alone (R39, R122) -/

section
variable {f : Family} (cap : Capability) {w v : Work f}

theorem bp_eq_of_pending_eq (h : pending w = pending v) : w.bp = v.bp := by
  rw [← pending_length w, h, pending_length]

theorem byteAt_eq_of_pending_eq (h : pending w = pending v) {o : Nat} (ho : o < w.bp) :
    w.buf.byteAt o = v.buf.byteAt o := by
  have hget := getElem?_pending w ho
  rw [h, getElem?_pending v (bp_eq_of_pending_eq h ▸ ho)] at hget
  exact (Option.some.inj hget).symm

/-- With the same `H` and the same pending bytes, `Absorb` leaves the same `H` and pending bytes and makes the same calls. -/
theorem absorb_congr (hw : w.bp < f.blockBytes) (hpending : pending w = pending v) (hh : w.h = v.h) (s : List Byte) :
    (absorb cap w s).h = (absorb cap v s).h ∧ pending (absorb cap w s) = pending (absorb cap v s) ∧
      ∃ calls, (absorb cap w s).trace = w.trace ++ calls ∧ (absorb cap v s).trace = v.trace ++ calls := by
  obtain ⟨hhw, hpw, htw⟩ := absorb_closedForm cap s w hw
  obtain ⟨hhv, hpv, htv⟩ := absorb_closedForm cap s v (bp_eq_of_pending_eq hpending ▸ hw)
  rw [← hh, ← hpending] at hhv htv
  rw [← hpending] at hpv
  exact ⟨hhw.trans hhv.symm, hpw.trans hpv.symm, _, htw, htv⟩

/-- What `Absorb` stores depends on the buffer and `BP` alone (R120). -/
theorem absorb_buf_congr (s : List Byte) : ∀ {w v : Work f}, w.bp < f.blockBytes → w.bp = v.bp → w.buf = v.buf →
    (absorb cap w s).buf = (absorb cap v s).buf := by
  induction s with
  | nil => exact fun _ _ hbuf => hbuf
  | cons b s ih =>
    intro w v hw hbp hbuf
    have hv : v.bp < f.blockBytes := hbp ▸ hw
    rw [absorb_cons cap hw, absorb_cons cap hv]
    refine ih (absorbByte_bp_lt cap w b hw) ?_ ?_
    · rw [absorbByte_bp cap w b hw, absorbByte_bp cap v b hv, hbp]
    · rw [absorbByte_buf, absorbByte_buf, hbp, hbuf]

end

/-! ### Commands -/

theorem pending_work_eq {s t : State} (b : Binding) (hbp : s.bp = t.bp)
    (h : ∀ o < s.bp.toNat, s.buf.byteAt o = t.buf.byteAt o) : pending (s.work b) = pending (t.work b) := by
  simp only [pending, memRead, State.work, ← hbp]
  exact List.map_congr_left fun o ho => h o (by rw [List.mem_range'_1] at ho; omega)

/-- The digest depends on `H`, the pending bytes and `TOTAL` (R128). -/
theorem digestBytes_congr (cap : Capability) {s t : State} {b : Binding} (hbp : s.bp.toNat < b.alg.blockBytes)
    (hpending : pending (s.work b) = pending (t.work b)) (htotal : s.total = t.total) :
    digestBytes cap b s = digestBytes cap b t := by
  obtain ⟨hh, -⟩ := absorb_congr cap (w := s.work b) hbp hpending rfl (pad s.total.toNat b.alg.blockBytes)
  rw [digestBytes, digestBytes, hh, htotal]

/-- Both states have appended the same bytes to `OUT`. -/
def AppendedAlike (s t s' t' : State) : Prop := ∃ bytes, s'.out = s.out ++ bytes ∧ t'.out = t.out ++ bytes

theorem AppendedAlike.of_out_eq {s t s' t' : State} (hs : s'.out = s.out) (ht : t'.out = t.out) :
    AppendedAlike s t s' t' :=
  ⟨[], by rw [hs, List.append_nil], by rw [ht, List.append_nil]⟩

/-- Settles O28: CREATE and RESET write what the algorithm determines, and `Absorb` reads and stores the same. -/
theorem contextDecidesEveryCommand : Obligations.ContextDecidesEveryCommand := by
  intro i s t hst
  obtain ⟨hbound, hbuf, hbp, htotal⟩ := hst
  have hpending (b : Binding) : pending (s.work b) = pending (t.work b) :=
    pending_work_eq b hbp fun o _ => by rw [hbuf]
  refine outcomeRel_exec hbound hbp htotal (fun a => ?_) ?_ (fun b len payload _ hlt => ?_) (fun b _ hlt => ?_)
    fun hi => ?_
  · exact ⟨⟨rfl, rfl, rfl, rfl⟩, fun _ => AppendedAlike.of_out_eq rfl rfl⟩
  · exact ⟨⟨hbound, hbuf, hbp, htotal⟩, fun _ => AppendedAlike.of_out_eq rfl rfl⟩
  · obtain ⟨hh, hpending', -⟩ := absorb_congr Config.capability (w := s.work b) hlt (hpending b) rfl payload
    refine ⟨⟨?_, ?_, ?_, ?_⟩, fun _ => AppendedAlike.of_out_eq rfl rfl⟩
    · simp only [advance_bound, countBytes_bound, absorb_bound, hh]
    · exact absorb_buf_congr _ payload hlt (congrArg BitVec.toNat hbp) hbuf
    · simp only [advance_bp, countBytes_bp, absorb_bp, bp_eq_of_pending_eq hpending']
    · simp only [advance_total, countBytes_total, absorb_total, htotal]
  · exact ⟨⟨rfl, rfl, rfl, rfl⟩, fun _ => ⟨_, rfl, congrArg (t.out ++ ·) (digestBytes_congr _ hlt (hpending b) htotal).symm⟩⟩
  · exact ⟨⟨hbound, hbuf, hbp, htotal⟩, fun hne => absurd hi hne⟩

/-- With other stale bytes in the buffer, `Absorb` leaves other stale bytes, and all else alike. -/
theorem absorb_withBuf (cap : Capability) {s : State} {b : Binding} {m : Memory} (hlt : s.bp.toNat < b.alg.blockBytes)
    (h : ∀ o < s.bp.toNat, s.buf.byteAt o = m.byteAt o) (bytes : List Byte) :
    StaleEq (s.absorb cap b bytes) (({ s with buf := m } : State).absorb cap b bytes) := by
  have hpending : pending (s.work b) = pending (({ s with buf := m } : State).work b) := pending_work_eq b rfl h
  obtain ⟨hh, hpending', calls, hts, htm⟩ := absorb_congr cap (w := s.work b) hlt hpending rfl bytes
  have htrace := hts.trans htm.symm
  refine ⟨?_, fun o ho => byteAt_eq_of_pending_eq hpending' ?_⟩
  · simp only [State.absorb, State.putWork, hh, htrace, bp_eq_of_pending_eq hpending']
  · rwa [absorb_bp, bp_roundtrip (absorb_bp_lt _ _ bytes hlt)] at ho

/-- Settles O50: `Absorb` neither reads a stale byte nor makes one pending, the reset of the context overwrites them all, and
nothing else reads the buffer. -/
theorem staleBytesAreNeverObserved : Obligations.StaleBytesAreNeverObserved := by
  rintro i s t ⟨hrest, hbytes⟩
  generalize t.buf = m at hrest hbytes
  subst hrest
  refine outcomeRel_exec rfl rfl rfl (fun a => ⟨rfl, fun _ _ => rfl⟩) ⟨rfl, hbytes⟩ (fun b len payload _ hlt => ?_)
    (fun b _ hlt => ?_) fun _ => ⟨rfl, hbytes⟩
  · obtain ⟨habsorb, hbytes'⟩ := absorb_withBuf Config.capability hlt hbytes payload
    exact ⟨by rw [habsorb]; rfl, hbytes'⟩
  · obtain ⟨habsorb, -⟩ := absorb_withBuf Config.capability hlt hbytes (pad s.total.toNat b.alg.blockBytes)
    have hpending : pending (s.work b) = pending (({ s with buf := m } : State).work b) := pending_work_eq b rfl hbytes
    refine ⟨?_, fun _ _ => rfl⟩
    rw [habsorb, ← digestBytes_congr Config.capability hlt hpending rfl]
    rfl

end Sys2Proof.Machine
end
